-- ==== Sys2Proof/Word.lean ====
section
/-! DEFINITION. The word types of the ADPCM decoder core (00_scope.md R9, 10_state.md R20). -/

namespace Sys2Proof

/-- `u8`, a byte of the source byte space (R50). -/
abbrev Byte := BitVec 8

/-- A 4-bit code, one nibble (R74). -/
abbrev Code := BitVec 4

/-- `u32`, and the storage of an `s32` register, whose value is `toInt` (R9, R22, R32). -/
abbrev U32 := BitVec 32

/-- `s16`, a sample or a signed 16-bit register; its value is `toInt` (R15, R35, R37). -/
abbrev Sample := BitVec 16

/-- The channel number `c` in {0, 1} that selects an entry of a per-channel register array (R20). -/
inductive Chan where
  | c0
  | c1
deriving DecidableEq, Repr

/-- A two-entry register array, one entry a channel (R20, R48). -/
structure PerChan (α : Type) where
  ch0 : α
  ch1 : α
deriving DecidableEq, Repr

end Sys2Proof
end

