-- ==== Sys2Proof/Syntax.lean ====
section
/-! DEFINITION. The instructions (one constructor a row of opcode_table.json, 30_encoding.md R87) and the three
kinds of encoding the core decodes them from. -/

namespace Sys2Proof

/-- The fifteen rows of the opcode table. -/
inductive Instr where
  /-- Command 0x1 (R101). -/
  | configure
  /-- Command 0x2 (R104). -/
  | read
  /-- Command 0x3 (R108). -/
  | rewind
  /-- Command 0x4 (R110). -/
  | queryEod
  /-- Command 0x5 (R111). -/
  | queryStereo
  /-- Command 0x6 (R112). -/
  | queryRate
  /-- Command 0x7 (R113). -/
  | release
  /-- Micro-operation of the plain IMA reader (R135). -/
  | imaByte
  /-- Micro-operation: MSIMA1 block header (R151). -/
  | msimaHdr
  /-- Micro-operation: MSIMA1 payload byte (R152). -/
  | msimaByte
  /-- Micro-operation: MSIMA2 group (R166). -/
  | msimaGroup
  /-- Micro-operation: MSADPCM block header (R182). -/
  | msadpcmHdr
  /-- Micro-operation: MSADPCM payload byte (R185). -/
  | msadpcmByte
  /-- Nibble primitive `DECODE_IMA(code, c)` (R132). -/
  | decodeIma (code : Code) (c : Chan)
  /-- Nibble primitive `DECODE_MS(c, code)` (R184). -/
  | decodeMs (c : Chan) (code : Code)
deriving DecidableEq, Repr

/-- `VARIANT` (R1, R27); `unset` is the spec's "none" (R27, R45). -/
inductive Variant where
  | unset
  | ima
  | msima1
  | msima2
  | msadpcm
deriving DecidableEq, Repr

/-- Which of the two decode primitives a code is given to (R74). -/
inductive NibbleFamily where
  | ima
  | ms
deriving DecidableEq, Repr

/-- What the core decodes an instruction from (R70, R82, R74): a word written to `CMD`; the selector of the next
micro-operation, that is `VARIANT` and whether `blockPos[0] = BLOCK_ALIGN`; or a code handed to a primitive. -/
inductive Encoding where
  | cmd (w : U32)
  | unit (v : Variant) (atHeader : Bool)
  | nibble (f : NibbleFamily) (code : Code) (c : Chan)
deriving DecidableEq, Repr

end Sys2Proof
end

