-- ==== Sys2Proof/WellFormed.lean ====
section
/-! DEFINITION. Which encodings are legal (30_encoding.md R70, R72, R82, R84). An `Instr` needs no check of its own:
its operands are a code of 4 bits and a channel of two, so no ill-formed instruction can be written. -/

namespace Sys2Proof

/-- The reserved field `ZERO` (bits 31:4) is 0 (R70). -/
def cmdZeroOk (w : U32) : Bool := w.toNat / 16 == 0

/-- `OP` (bits 3:0) is one of the seven opcodes (R71, R72). -/
def cmdOpOk (w : U32) : Bool := 1 ≤ w.toNat % 16 && w.toNat % 16 ≤ 7

/-- The legal encodings: a command word passes both checks of R72; a selector needs a variant (R82); every code is
legal (R84). -/
def Encoding.wellFormed : Encoding → Bool
  | .cmd w => cmdZeroOk w && cmdOpOk w
  | .unit v _ => v != .unset
  | .nibble _ _ _ => true

end Sys2Proof
end

