-- ==== Sys2Proof/Decode.lean ====
section
/-! DEFINITION. The decoder, the bit fields it pulls out, and after it the encoder (30_encoding.md). -/

namespace Sys2Proof

/-- `CMD[3:0]`, the field `OP` (R70). -/
def cmdOp (w : U32) : Code := w.extractLsb' 0 4

/-- `CMD[31:4]`, the field `ZERO` (R70). -/
def cmdZero (w : U32) : BitVec 28 := w.extractLsb' 4 28

/-- `code[3]`, the field `S` (R74). -/
def codeSign (code : Code) : Bool := code.getLsbD 3

/-- `code[2:0]`, the field `M` (R74). -/
def codeMag (code : Code) : BitVec 3 := code.extractLsb' 0 3

/-- `b[7:4]` (R75). -/
def hiNibble (b : Byte) : Code := b.extractLsb' 4 4

/-- `b[3:0]` (R75). -/
def loNibble (b : Byte) : Code := b.extractLsb' 0 4

/-- `{b1, b0}`: two little-endian bytes, b0 in bits 7:0 (R57). -/
def le16 (b0 b1 : Byte) : BitVec 16 := b1 ++ b0

/-- `{b3, b2, b1, b0}`: four little-endian bytes, b0 in bits 7:0 (R58). -/
def le32 (b0 b1 b2 b3 : Byte) : U32 := b3 ++ (b2 ++ (b1 ++ b0))

/-- Nibble k of an MSIMA2 word, `W[31-4k : 28-4k]`, k = 0 to 7: the most significant nibble first (R62, R78). -/
def wordNibble (w : U32) (k : Nat) : Code := w.extractLsb' (28 - 4 * k) 4

/-- Why an encoding is no instruction. -/
inductive DecodeReject where
  /-- `CMD[31:4]` is not 0 (R72). -/
  | zeroFieldNotZero
  /-- `OP` is 0x0 or 0x8 to 0xF (R72). -/
  | reservedOp (op : Code)
  /-- No variant is configured, so no micro-operation is selected (R82). -/
  | noVariant
deriving DecidableEq, Repr

/-- The decoder's answer. -/
inductive Decoded where
  | instr (i : Instr)
  | rejected (why : DecodeReject)
deriving DecidableEq, Repr

/-- The instruction of an answer, if it is one. -/
def Decoded.toOption : Decoded → Option Instr
  | .instr i => some i
  | .rejected _ => none

/-- A word written to `CMD` (R70 to R72). -/
def decodeCmd (w : U32) : Decoded :=
  if cmdZero w ≠ 0 then .rejected .zeroFieldNotZero
  else
    match (cmdOp w).toNat with
    | 1 => .instr .configure
    | 2 => .instr .read
    | 3 => .instr .rewind
    | 4 => .instr .queryEod
    | 5 => .instr .queryStereo
    | 6 => .instr .queryRate
    | 7 => .instr .release
    | _ => .rejected (.reservedOp (cmdOp w))

/-- The selection table of R82. -/
def decodeUnit (v : Variant) (atHeader : Bool) : Decoded :=
  match v, atHeader with
  | .unset, _ => .rejected .noVariant
  | .ima, _ => .instr .imaByte
  | .msima1, true => .instr .msimaHdr
  | .msima1, false => .instr .msimaByte
  | .msima2, _ => .instr .msimaGroup
  | .msadpcm, true => .instr .msadpcmHdr
  | .msadpcm, false => .instr .msadpcmByte

/-- The decoder: total, and every rejection has a name. -/
def decode : Encoding → Decoded
  | .cmd w => decodeCmd w
  | .unit v h => decodeUnit v h
  | .nibble .ima code c => .instr (.decodeIma code c)
  | .nibble .ms code c => .instr (.decodeMs c code)

/-- The instruction the decoder reads from a row's bits, numbered as the opcode table numbers them. Only the
commands have a word of their own (R71, 32 bits); the bits of a micro-operation's unit are data and select nothing
(R82, R87: mask 0), so they are no instruction here. Bits above `nbits` are 0. -/
def decodeTableWord (nbits w : Nat) : Option Instr :=
  if nbits ≤ 32 then (decode (.cmd (BitVec.ofNat 32 (w % 2 ^ nbits)))).toOption else none

/-- `CMD` with `OP` in bits 3:0 and 0 in `ZERO` (R70). -/
def cmdWord (op : Code) : U32 := (0 : BitVec 28) ++ op

/-- The encoder: the command word of R71, the selector of R82, or the code itself (R74). Where R82's condition is
"always" the selector is given with `atHeader` false. -/
def encode : Instr → Encoding
  | .configure => .cmd (cmdWord 0x1)
  | .read => .cmd (cmdWord 0x2)
  | .rewind => .cmd (cmdWord 0x3)
  | .queryEod => .cmd (cmdWord 0x4)
  | .queryStereo => .cmd (cmdWord 0x5)
  | .queryRate => .cmd (cmdWord 0x6)
  | .release => .cmd (cmdWord 0x7)
  | .imaByte => .unit .ima false
  | .msimaHdr => .unit .msima1 true
  | .msimaByte => .unit .msima1 false
  | .msimaGroup => .unit .msima2 false
  | .msadpcmHdr => .unit .msadpcm true
  | .msadpcmByte => .unit .msadpcm false
  | .decodeIma code c => .nibble .ima code c
  | .decodeMs c code => .nibble .ms code c

/-- The payload byte with these codes in its high and low nibble (R75). -/
def payloadByte (hi lo : Code) : Byte := hi ++ lo

/-- The MSIMA2 word whose nibble k is `codes[k]`, k = 0 first (R78). -/
def groupWord (k0 k1 k2 k3 k4 k5 k6 k7 : Code) : U32 :=
  k0 ++ (k1 ++ (k2 ++ (k3 ++ (k4 ++ (k5 ++ (k6 ++ k7))))))

end Sys2Proof
end

