-- ==== Sys2Proof/Config.lean ====
section
/-! DEFINITION. The parameters 00_scope.md R8 leaves open, and the free value `draw()` (20_memory.md R56).
A constant without a body has no value a proof could use: what is proved holds for every value of it. -/

namespace Sys2Proof

/-- The two meanings of the byte source's end-of-stream signal (R53). -/
inductive EosMode where
  | atEnd
  | afterShortRead
deriving DecidableEq, Repr, Inhabited

/-- The two widths of the adaptive delta (R36). -/
inductive DeltaBits where
  | bits16
  | bits32
deriving DecidableEq, Repr, Inhabited

/-- Which wire field of an MSADPCM header is `sample1` (R79). -/
inductive SampleOrder where
  | doc
  | std
deriving DecidableEq, Repr, Inhabited

/-- `EOS_MODE`, OPEN (R8, D9; log entry 3). -/
opaque Config.eosMode : EosMode

/-- `MS_DELTA_BITS`, OPEN (R8, D16; log entry 4). -/
opaque Config.msDeltaBits : DeltaBits

/-- `draw()`: the byte the k-th read past the end of the source returns, a free value (R56, D10; log entry 2).
The state counts the draws taken (`drawIx`). -/
opaque Config.draw : Nat → Byte

end Sys2Proof
end

