-- ==== Sys2Proof/Machine/Memory.lean ====
section
/-! DEFINITION. Memory as sparse cells in one canonical form: addresses strictly rising, and no cell that holds what
an unlisted address reads as. The source byte space (20_memory.md R50) holds bytes, the output sample space (R59)
samples. -/

namespace Sys2Proof.Machine

/-- The source byte space: `SRC[a]` by address. -/
abbrev Memory := List Host.Cell

/-- The output sample space: `OUT[i]` by index. -/
abbrev OutSpace := List (Nat × Sample)

/-- What an unlisted cell reads as, in both spaces. For the source this is only how a bound byte 0 is written down
(an address at or past `SRC_LEN` is never looked up, R56); for the output see log entry 8. -/
def unlisted {w : Nat} : BitVec w := 0

/-- The value at address `k`. -/
def cellRead {w : Nat} : List (Nat × BitVec w) → Nat → BitVec w
  | [], _ => unlisted
  | (a, v) :: rest, k => if a = k then v else cellRead rest k

/-- The cells with address `k` holding `v`; canonical cells stay canonical. -/
def cellWrite {w : Nat} : List (Nat × BitVec w) → Nat → BitVec w → List (Nat × BitVec w)
  | [], k, v => if v = unlisted then [] else [(k, v)]
  | (a, u) :: rest, k, v =>
    if k < a then (if v = unlisted then (a, u) :: rest else (k, v) :: (a, u) :: rest)
    else if k = a then (if v = unlisted then rest else (k, v) :: rest)
    else (a, u) :: cellWrite rest k v

/-- The cells that hold the values `vs` from address `k` on. -/
def cellsFrom {w : Nat} (k : Nat) : List (BitVec w) → List (Nat × BitVec w)
  | [] => []
  | v :: vs => if v = unlisted then cellsFrom (k + 1) vs else (k, v) :: cellsFrom (k + 1) vs

/-- The canonical form. -/
abbrev cellsWf {w : Nat} (m : List (Nat × BitVec w)) : Prop :=
  m.Pairwise (fun x y => x.1 < y.1) ∧ ∀ x ∈ m, x.2 ≠ unlisted

/-- The canonical form of the source byte space. -/
abbrev Memory.wf (m : Memory) : Prop := cellsWf m

/-- The canonical form of the output sample space. -/
abbrev OutSpace.wf (m : OutSpace) : Prop := cellsWf m

end Sys2Proof.Machine
end

