-- ==== Sys2Proof/Machine/State.lean ====
section
/-! DEFINITION. The state of the core, of the byte source and of the host interface (10_state.md, 20_memory.md R50,
R59), why a step can stop, and the state after hardware reset (R45, R240). -/

namespace Sys2Proof.Machine

/-- `MODE` (R21). -/
inductive Mode where
  | unconfigured
  | ready
  | busy
  | faulted
deriving DecidableEq, Repr

/-- The eleven causes of R210. Each is TAKEN, as a next state, by `raise` (R212); none stops the model. -/
inductive FaultCode where
  | unsupportedFormat
  | zeroBlockAlign
  | badChannels
  | blockAlignTooSmall
  | notConfigured
  | alreadyConfigured
  | illegalCommand
  | badRequestCount
  | stepIndexRange
  | outputOverrun
  | deltaOverflow
deriving DecidableEq, Repr

/-- The argument registers, host registers 3 to 9 (R22). -/
structure ArgRegs where
  format : U32
  channels : U32
  blockAlign : U32
  rate : U32
  size : U32
  own : U32
  reqCount : U32
deriving DecidableEq, Repr

/-- The names of the argument registers, for a host write (R22). -/
inductive ArgReg where
  | cfgFormat
  | cfgChannels
  | cfgBlockAlign
  | cfgRate
  | cfgSize
  | cfgOwn
  | reqCount
deriving DecidableEq, Repr

/-- The ten host registers, for a host read (R22). -/
inductive HostReg where
  | cmd
  | status
  | result
  | arg (r : ArgReg)
deriving DecidableEq, Repr

/-- The latched configuration (R27). -/
structure Latched where
  format : U32
  channels : U32
  blockAlign : U32
  rate : U32
  startPos : Nat
  endPos : Nat
  own : Bool
  variant : Variant
deriving DecidableEq, Repr

/-- The IMA predictor of one channel: `last[c]` and `stepIndex[c]`, each `s32` (R32, R33). -/
structure ImaChan where
  last : U32
  stepIndex : U32
deriving DecidableEq, Repr

/-- The MS-ADPCM status of one channel (R34 to R37). `delta` is `s32`; with 16 delta bits it holds the 16-bit
register's value sign-extended (R36; log entry 4). -/
structure MsChan where
  pred : Byte
  coeff1 : Sample
  coeff2 : Sample
  delta : U32
  sample1 : Sample
  sample2 : Sample
deriving DecidableEq, Repr

/-- The bound byte source: `SRC`, `SRC_LEN` and its position as the next CONFIGURE will find it (R50). While a decoder
lives the position is `pos` (R28), and RELEASE hands it back (log entry 9). -/
structure Source where
  cells : Memory
  len : Nat
  position : Nat
deriving DecidableEq, Repr

/-- A host-visible event (R113). -/
inductive Event where
  | sourceReleased
deriving DecidableEq, Repr

/-- One action of the host (R7, R243): a register write, a binding, or hardware reset. `STATUS` and `RESULT` have no
write path (R23, R24), so no such action names them. A source is bound as the bytes before its position and the bytes
from it on, so its position is always a position of it (R50). -/
inductive HostAction where
  | writeArg (r : ArgReg) (v : U32)
  | writeCmd (w : U32)
  | bindSource (before rest : List Byte)
  | bindOut (samples : List Sample)
  | hardwareReset
deriving DecidableEq, Repr

/-- The whole state. INVENTORY.md, '## State', gives the rule of each field. -/
structure State where
  mode : Mode
  faultCode : BitVec 8
  cmd : U32
  result : U32
  args : ArgRegs
  latched : Latched
  /-- `pos`, the read position (R28). -/
  pos : Nat
  eosFlag : Bool
  blockPos : PerChan U32
  ima : PerChan ImaChan
  ms : PerChan MsChan
  /-- `N` (R39); 0 outside a READ (log entry 6). -/
  reqN : U32
  /-- `s` (R39); 0 outside a READ (log entry 6). -/
  outCount : U32
  src : Source
  out : OutSpace
  /-- The run's history of host-visible events, oldest first (R113). -/
  events : List Event
  /-- The host's pending actions, next first (R7; log entry 5). -/
  host : List HostAction
  /-- The model's own: how many draws were taken (log entry 2). -/
  drawIx : Nat
deriving DecidableEq, Repr

/-- Why the machine can be stuck. -/
inductive Fault where
  /-- Raised by `step` in `BUSY` when no variant is latched: READ_LOOP has no case for it (R105). Safe: R104 enters
  `BUSY` only from `READY`, where a variant is latched, so no run reaches it (log entry 10). -/
  | busyWithoutVariant
deriving DecidableEq, Repr

/-- Why the model gives no outcome. -/
inductive Refusal where
  /-- An instruction without a meaning, named by its mnemonic; no arm of `exec` answers it. Safe. -/
  | notModelled (mnemonic : String)
  /-- Answered by a command's meaning asked for while a READ runs: the spec has no such host step (R68, R100, D20,
  U12 "refuse"). Safe; `step` never asks (log entry 11). -/
  | commandWhileBusy
  /-- Answered by `step` when the host would bind another source while a decoder lives: the spec has no such host step
  (R68, R244, D22). Safe (log entry 11). -/
  | sourceBoundDuringInstance
deriving DecidableEq, Repr

/-- The cleared argument registers (R22). -/
def ArgRegs.zero : ArgRegs := ⟨0, 0, 0, 0, 0, 0, 0⟩

/-- No configuration (R27, R45). -/
def Latched.zero : Latched := ⟨0, 0, 0, 0, 0, 0, false, .unset⟩

/-- The IMA predictor's default, 0 and 0 (R45, D7). -/
def ImaChan.zero : ImaChan := ⟨0, 0⟩

/-- The MS-ADPCM default, all 0 (R45, D8). -/
def MsChan.zero : MsChan := ⟨0, 0, 0, 0, 0, 0⟩

/-- The machine right after hardware reset (R45, R240), with nothing bound and no host action pending. -/
def State.reset : State where
  mode := .unconfigured
  faultCode := 0
  cmd := 0
  result := 0
  args := ArgRegs.zero
  latched := Latched.zero
  pos := 0
  eosFlag := false
  blockPos := ⟨0, 0⟩
  ima := ⟨ImaChan.zero, ImaChan.zero⟩
  ms := ⟨MsChan.zero, MsChan.zero⟩
  reqN := 0
  outCount := 0
  src := ⟨[], 0, 0⟩
  out := []
  events := []
  host := []
  drawIx := 0

end Sys2Proof.Machine
end

