-- ==== Sys2Proof/Machine/Tables.lean ====
section
/-! DEFINITION. The read-only tables (10_state.md R40 to R44) and the decided parameter. The inner 87 values of
`IMA_STEP` and all of `MS_ADAPT` are the spec's own from general knowledge (G1, G2; log entry 12). -/

namespace Sys2Proof.Machine

/-- `IMA_STEP[0..88]` (R40). -/
def imaSteps : List Nat :=
  [7, 8, 9, 10, 11, 12, 13, 14, 16, 17] ++
  [19, 21, 23, 25, 28, 31, 34, 37, 41, 45] ++
  [50, 55, 60, 66, 73, 80, 88, 97, 107, 118] ++
  [130, 143, 157, 173, 190, 209, 230, 253, 279, 307] ++
  [337, 371, 408, 449, 494, 544, 598, 658, 724, 796] ++
  [876, 963, 1060, 1166, 1282, 1411, 1552, 1707, 1878, 2066] ++
  [2272, 2499, 2749, 3024, 3327, 3660, 4026, 4428, 4871, 5358] ++
  [5894, 6484, 7132, 7845, 8630, 9493, 10442, 11487, 12635, 13899] ++
  [15289, 16818, 18500, 20350, 22385, 24623, 27086, 29794, 32767]

/-- `IMA_STEP[i]`; read only for i in 0 to 88 (R132). -/
def imaStep (i : Int) : Int := imaSteps.getD i.toNat 0

/-- `STEP_ADJUST[0..7]` (R41). -/
def stepAdjustTable : List Int := [-1, -1, -1, -1, 2, 4, 6, 8]

/-- `MS_COEFF1[0..6]` (R42). -/
def msCoeff1 : List Int := [256, 512, 0, 192, 240, 460, 392]

/-- `MS_COEFF2[0..6]` (R42). -/
def msCoeff2 : List Int := [0, -256, 0, 64, 0, -208, -232]

/-- `MS_ADAPT[0..15]` (R43). -/
def msAdaptTable : List Int :=
  [230, 230, 230, 230, 307, 409, 512, 614] ++ [768, 614, 512, 409, 307, 230, 230, 230]

/-- `MS_ADAPT[code]`, indexed by all four bits (R43, R184). -/
def msAdapt (code : Code) : Int := msAdaptTable.getD code.toNat 0

/-- `MS_HDR_SAMPLE_ORDER`, decided as `DOC` (R8, R79, D17). -/
def msHdrSampleOrder : SampleOrder := .doc

end Sys2Proof.Machine
end

