-- ==== Sys2Proof/Machine/Operands.lean ====
section
/-! DEFINITION. Arithmetic primitives (00_scope.md R11), narrowing (R10), the operands of commands (30_encoding.md R73)
and of the decode primitives (R74, R83), and the channels a unit is laid out for (R75, R79). -/

namespace Sys2Proof

/-- The entry of channel c (R12). -/
def PerChan.get {α : Type} (p : PerChan α) : Chan → α
  | .c0 => p.ch0
  | .c1 => p.ch1

/-- The array with the entry of channel c replaced (R12). -/
def PerChan.set {α : Type} (p : PerChan α) (c : Chan) (v : α) : PerChan α :=
  match c with
  | .c0 => ⟨v, p.ch1⟩
  | .c1 => ⟨p.ch0, v⟩

end Sys2Proof

namespace Sys2Proof.Machine

/-- `clamp(v, lo, hi)` (R11). -/
def clamp (v lo hi : Int) : Int := if v < lo then lo else if v > hi then hi else v

/-- `tdiv(a, 256)`: truncated toward zero (R11, R184, D15). -/
def tdiv256 (a : Int) : Int := if 0 ≤ a then a / 256 else -((-a) / 256)

/-- `a >> 8` on a signed value: `floor(a / 2^8)` (R10). -/
def sar8 (a : Int) : Int := a / 256

/-- `wrap_16(v)` (R10). -/
def wrap16 (v : Int) : Int := (BitVec.ofInt 16 v).toInt

/-- Inside s32 (R184). -/
def inS32 (v : Int) : Bool := -2147483648 ≤ v && v ≤ 2147483647

/-- Storing an integer into an `s16` place (R9). -/
def s16 (v : Int) : Sample := BitVec.ofInt 16 v

/-- Storing an integer into an `s32` register (R9). -/
def s32 (v : Int) : U32 := BitVec.ofInt 32 v

/-- `sext_4(code)`: `code - 16` if bit 3 is set, else `code` (R74). -/
def sext4 (code : Code) : Int := if codeSign code then (code.toNat : Int) - 16 else code.toNat

/-- `StepAdjust(code)`: indexed by `code[2:0]` (R131). -/
def stepAdjust (code : Code) : Int := stepAdjustTable.getD (codeMag code).toNat 0

/-- `min(zext_8(p), 6)`: the predictor byte, read unsigned (R79, R83, D14). -/
def clampPred (p : Byte) : Byte := if p.toNat < 6 then p else 6

/-- The number c (R12). -/
def chanNum : Chan → Nat
  | .c0 => 0
  | .c1 => 1

/-- The channels `0 .. CHANNELS-1` of the configured decoder, CHANNELS being 1 or 2 (R27, R182). -/
def channelList (s : State) : List Chan := if s.latched.channels = 2 then [.c0, .c1] else [.c0]

/-- `CHANNELS - 1`, which for IMA is "1 if CHANNELS = 2, else 0": the channel of a payload byte's second code
(R75, R135, R185). -/
def lastChan (s : State) : Chan := if s.latched.channels = 2 then .c1 else .c0

/-- `SelectVariant(f, c)` (R102), for a format and a channel count CONFIGURE has checked. -/
def selectVariant (f c : U32) : Variant :=
  if f = 1 then .ima else if f = 2 then (if c = 1 then .msima1 else .msima2) else .msadpcm

/-- The first configuration error, in the order of R101, if there is one. -/
def configError (a : ArgRegs) : Option FaultCode :=
  if ¬(a.format = 1 ∨ a.format = 2 ∨ a.format = 3) then some .unsupportedFormat
  else if ¬(a.channels = 1 ∨ a.channels = 2) then some .badChannels
  else if (a.format = 2 ∨ a.format = 3) ∧ a.blockAlign = 0 then some .zeroBlockAlign
  else if a.format = 2 ∧ a.channels = 1 ∧ a.blockAlign.toNat < 4 then some .blockAlignTooSmall
  else if a.format = 3 ∧ a.blockAlign.toNat < 7 * a.channels.toNat then some .blockAlignTooSmall
  else none

/-- The request count READ refuses (R104): odd, or for MSIMA2 not a multiple of 16. -/
def badRequest (v : Variant) (n : U32) : Bool :=
  match v with
  | .ima | .msima1 | .msadpcm => n.toNat % 2 != 0
  | .msima2 => n.toNat % 16 != 0
  | .unset => false

end Sys2Proof.Machine
end

