-- ==== Sys2Proof/Machine/Ops.lean ====
section
/-! DEFINITION. The named operations every meaning is written with: reading the source (20_memory.md R55 to R58),
writing the output (R60), register updates, taking a fault (60_exceptions.md R212), hardware reset, which alone leaves
it (R214, R240), and the acceptance of a command by mode (40_base_and_commands.md R100). -/

namespace Sys2Proof.Machine

/-! ### Faults -/

/-- The code a fault writes to `STATUS.FAULT_CODE` (R210). -/
def faultNum : FaultCode → BitVec 8
  | .unsupportedFormat => 1
  | .zeroBlockAlign => 2
  | .badChannels => 3
  | .blockAlignTooSmall => 4
  | .notConfigured => 5
  | .alreadyConfigured => 6
  | .illegalCommand => 7
  | .badRequestCount => 8
  | .stepIndexRange => 9
  | .outputOverrun => 10
  | .deltaOverflow => 11

/-- `raise Fault(code)` (R212): the code is recorded and the core is `FAULTED`; everything else stays as the command
left it (R213). The transient `N` and `s` end with the request they belong to (R39; log entry 6). -/
def raise (code : FaultCode) (s : State) : State :=
  { s with faultCode := faultNum code, mode := .faulted, reqN := 0, outCount := 0 }

/-- A decoder lives: one was configured and not released (R21, R27). -/
def hasInstance (s : State) : Bool := s.latched.variant != .unset

/-- Hardware reset (R240): every register of the core at its reset value (R45). The host's own things stay: its
pending actions, the bound source and buffer, the history (log entry 9). -/
def hardwareReset (s : State) : State :=
  { State.reset with
    src := { s.src with position := if hasInstance s then s.pos else s.src.position }
    out := s.out
    events := s.events
    host := s.host
    drawIx := s.drawIx }

/-! ### A command or micro-operation under way -/

/-- What a part of an operation answers: it is done, with a value, or a fault has ended the command (R13, R212), the
state being the one `raise` left. -/
inductive Res (α : Type) where
  | done (v : α) (s : State)
  | raised (s : State)

/-- The next statement, unless a fault has ended the command (R13). -/
def Res.andThen {α β : Type} (r : Res α) (f : α → State → Res β) : Res β :=
  match r with
  | .done v s => f v s
  | .raised s => .raised s

/-- The state an operation leaves. -/
def Res.state {α : Type} : Res α → State
  | .done _ s => s
  | .raised s => s

/-- As the outcome of a step: taking a fault is a next state (R212). -/
def Res.outcome {α : Type} (r : Res α) : Host.Outcome State Fault Refusal := .next r.state

/-! ### Registers -/

/-- Write channel c's IMA registers. -/
def setIma (c : Chan) (v : ImaChan) (s : State) : State := { s with ima := s.ima.set c v }

/-- Write channel c's MS-ADPCM registers. -/
def setMs (c : Chan) (v : MsChan) (s : State) : State := { s with ms := s.ms.set c v }

/-- `blockPos[0] <- v`. -/
def setBlockPos (v : U32) (s : State) : State := { s with blockPos := { s.blockPos with ch0 := v } }

/-- `s <- s + k`. -/
def addCount (k : U32) (s : State) : State := { s with outCount := s.outCount + k }

/-- `RESULT <- v`. -/
def setResult (v : U32) (s : State) : State := { s with result := v }

/-- A host write of an argument register (R22). -/
def setArg (r : ArgReg) (v : U32) (s : State) : State :=
  { s with
    args :=
      match r with
      | .cfgFormat => { s.args with format := v }
      | .cfgChannels => { s.args with channels := v }
      | .cfgBlockAlign => { s.args with blockAlign := v }
      | .cfgRate => { s.args with rate := v }
      | .cfgSize => { s.args with size := v }
      | .cfgOwn => { s.args with own := v }
      | .reqCount => { s.args with reqCount := v } }

/-- `InitDerivedState()` (R103). -/
def initDerived (s : State) : State :=
  { s with
    pos := s.latched.startPos
    eosFlag := false
    blockPos := ⟨s.latched.blockAlign, s.latched.blockAlign⟩
    ima := ⟨ImaChan.zero, ImaChan.zero⟩
    ms := ⟨MsChan.zero, MsChan.zero⟩ }

/-! ### The source byte space -/

/-- `SrcReadByte()` (R55), and past the end a draw (R56). -/
def srcReadByte (s : State) : Byte × State :=
  if s.pos < s.src.len then (cellRead s.src.cells s.pos, { s with pos := s.pos + 1 })
  else (Config.draw s.drawIx, { s with eosFlag := true, drawIx := s.drawIx + 1 })

/-- `SrcRead16LE()` (R57). -/
def srcRead16 (s : State) : Sample × State :=
  let r0 := srcReadByte s
  let r1 := srcReadByte r0.2
  (le16 r0.1 r1.1, r1.2)

/-- `SrcRead32LE()` (R58). -/
def srcRead32 (s : State) : U32 × State :=
  let r0 := srcReadByte s
  let r1 := srcReadByte r0.2
  let r2 := srcReadByte r1.2
  let r3 := srcReadByte r2.2
  (le32 r0.1 r1.1 r2.1 r3.1, r3.2)

/-- The host binds a byte source (R50, R243). No host step changes the source while a decoder lives (R68). -/
def bindSource (before rest : List Byte) (s : State) : Host.Outcome State Fault Refusal :=
  if hasInstance s then .refused .sourceBoundDuringInstance
  else
    .next
      { s with
        src :=
          { cells := cellsFrom 0 (before ++ rest)
            len := before.length + rest.length
            position := before.length } }

/-! ### The output sample space -/

/-- `OUT[i] <- v`. -/
def setOut (i : Nat) (v : Sample) (s : State) : State := { s with out := cellWrite s.out i v }

/-- `OutWrite(i, v)` (R60). -/
def outWrite (i : Nat) (v : Sample) (s : State) : Res Unit :=
  if i ≥ s.reqN.toNat then .raised (raise .outputOverrun s) else .done () (setOut i v s)

/-- The host binds an output buffer, with the samples it holds (R59, R243; log entries 8 and 21). -/
def bindOut (samples : List Sample) (s : State) : State := { s with out := cellsFrom 0 samples }

/-! ### Command acceptance -/

/-- Every command but CONFIGURE (R100): in `UNCONFIGURED` it faults, in `FAULTED` it has no effect. -/
def acceptWhenReady (body : State → State) (s : State) : Host.Outcome State Fault Refusal :=
  match s.mode with
  | .busy => .refused .commandWhileBusy
  | .faulted => .next s
  | .unconfigured => .next (raise .notConfigured s)
  | .ready => .next (body s)

/-- CONFIGURE (R100): in `READY` it faults, in `FAULTED` it has no effect. -/
def acceptConfigure (body : State → State) (s : State) : Host.Outcome State Fault Refusal :=
  match s.mode with
  | .busy => .refused .commandWhileBusy
  | .faulted => .next s
  | .unconfigured => .next (body s)
  | .ready => .next (raise .alreadyConfigured s)

/-- An illegal command word (R72, R100): a fault in `UNCONFIGURED` and `READY`, without effect in `FAULTED`. -/
def acceptIllegal (s : State) : Host.Outcome State Fault Refusal :=
  match s.mode with
  | .busy => .refused .commandWhileBusy
  | .faulted => .next s
  | .unconfigured => .next (raise .illegalCommand s)
  | .ready => .next (raise .illegalCommand s)

end Sys2Proof.Machine
end

