-- ==== Sys2Proof/Machine/Flags.lean ====
section
/-! DEFINITION. End of data (20_memory.md R53, R54) and the host's view of the ten registers (10_state.md R22 to R26):
`STATUS` is computed on every read (R47). -/

namespace Sys2Proof.Machine

/-- `Exhausted()` under one meaning of the end-of-stream signal (R53). -/
def exhaustedIn (m : EosMode) (s : State) : Bool :=
  match m with
  | .atEnd => decide (s.src.len ≤ s.pos)
  | .afterShortRead => s.eosFlag

/-- `EndOfData()` under one meaning (R54). -/
def endOfDataIn (m : EosMode) (s : State) : Bool := exhaustedIn m s || decide (s.latched.endPos ≤ s.pos)

/-- `Exhausted()` (R53). -/
def exhausted (s : State) : Bool := exhaustedIn Config.eosMode s

/-- `EndOfData()` (R54). -/
def endOfData (s : State) : Bool := endOfDataIn Config.eosMode s

/-- A flag as a register value. -/
def bit (b : Bool) : U32 := if b then 1 else 0

/-- `STATUS.CFG`: `MODE` is `READY` or `BUSY` (R23). -/
def statusCfg (s : State) : Bool := s.mode == .ready || s.mode == .busy

/-- `STATUS.FLT` (R23). -/
def statusFlt (s : State) : Bool := s.mode == .faulted

/-- `STATUS.EOD` (R23). -/
def statusEod (s : State) : Bool := statusCfg s && endOfData s

/-- `STATUS.STEREO` (R23). -/
def statusStereo (s : State) : Bool := statusCfg s && s.latched.channels == 2

/-- The number of a variant in `STATUS.VARIANT` (R23). -/
def variantNum : Variant → BitVec 4
  | .unset => 0
  | .ima => 1
  | .msima1 => 2
  | .msima2 => 3
  | .msadpcm => 4

/-- `STATUS.VARIANT` (R23). -/
def statusVariant (s : State) : BitVec 4 := if statusCfg s then variantNum s.latched.variant else 0

/-- `STATUS.FAULT_CODE`: 0 when `FLT` = 0 (R23). -/
def statusFaultCode (s : State) : BitVec 8 := if statusFlt s then s.faultCode else 0

/-- `STATUS`: bits 31:16 read 0, then `FAULT_CODE`, `VARIANT`, `STEREO`, `EOD`, `FLT`, `CFG` (R23). -/
def statusWord (s : State) : U32 :=
  (0 : BitVec 16) ++ (statusFaultCode s ++ (statusVariant s ++ (BitVec.ofBool (statusStereo s) ++
    (BitVec.ofBool (statusEod s) ++ (BitVec.ofBool (statusFlt s) ++ BitVec.ofBool (statusCfg s))))))

/-- A host read of an argument register (R22). -/
def argValue (r : ArgReg) (a : ArgRegs) : U32 :=
  match r with
  | .cfgFormat => a.format
  | .cfgChannels => a.channels
  | .cfgBlockAlign => a.blockAlign
  | .cfgRate => a.rate
  | .cfgSize => a.size
  | .cfgOwn => a.own
  | .reqCount => a.reqCount

/-- A host read of a register; it has no effect (R22, R26, R219). -/
def hostRead (r : HostReg) (s : State) : U32 :=
  match r with
  | .cmd => s.cmd
  | .status => statusWord s
  | .result => s.result
  | .arg a => argValue a s.args

end Sys2Proof.Machine
end

