-- ==== Sys2Proof/Machine/Commands.lean ====
section
/-! DEFINITION. The seven commands (40_base_and_commands.md), each with the mode it is accepted in (R100). -/

namespace Sys2Proof.Machine

/-- The registers CONFIGURE latches (R101, R27). -/
def latchedOf (s : State) : Latched where
  format := s.args.format
  channels := s.args.channels
  blockAlign := s.args.blockAlign
  rate := s.args.rate
  startPos := s.src.position
  endPos := s.src.position + s.args.size.toNat
  own := s.args.own.getLsbD 0
  variant := selectVariant s.args.format s.args.channels

/-- `CONFIGURE()` (R101): the checks precede every state change. -/
def configure (s : State) : State :=
  match configError s.args with
  | some code => raise code s
  | none => setResult 0 { initDerived { s with latched := latchedOf s } with mode := .ready }

/-- `READ()` up to its loop (R104): `N` is latched and checked, and the request starts. The loop is run by the
sequencer, one iteration a step, and `finishRead` ends it (R105, R106). Where the host has bound no buffer since the last
READ, this one writes into the space bound last, with its contents: the model's choice (R59; log entry 21). -/
def startRead (s : State) : State :=
  if badRequest s.latched.variant s.args.reqCount then raise .badRequestCount s
  else { s with reqN := s.args.reqCount, outCount := 0, mode := .busy }

/-- The end of a READ without a fault (R106): `RESULT <- s`, and the request state is gone (R39). -/
def finishRead (s : State) : State :=
  { s with result := s.outCount, mode := .ready, reqN := 0, outCount := 0 }

/-- `REWIND()` (R108). -/
def rewind (s : State) : State := setResult 1 (initDerived s)

/-- `RELEASE()` (R113). The byte source is left at the position the core read it to (R28, R50; log entry 9). -/
def release (s : State) : State :=
  { s with
    events := if s.latched.own then s.events ++ [.sourceReleased] else s.events
    src := { s.src with position := s.pos }
    latched := Latched.zero
    pos := 0
    eosFlag := false
    blockPos := ⟨0, 0⟩
    ima := ⟨ImaChan.zero, ImaChan.zero⟩
    ms := ⟨MsChan.zero, MsChan.zero⟩
    mode := .unconfigured
    result := 0 }

/-- CONFIGURE, 0x1 (R101). -/
def execConfigure (s : State) : Host.Outcome State Fault Refusal := acceptConfigure configure s

/-- READ, 0x2 (R104). -/
def execRead (s : State) : Host.Outcome State Fault Refusal := acceptWhenReady startRead s

/-- REWIND, 0x3 (R108). -/
def execRewind (s : State) : Host.Outcome State Fault Refusal := acceptWhenReady rewind s

/-- QUERY_EOD, 0x4 (R110). -/
def execQueryEod (s : State) : Host.Outcome State Fault Refusal :=
  acceptWhenReady (fun s => setResult (bit (endOfData s)) s) s

/-- QUERY_STEREO, 0x5 (R111). -/
def execQueryStereo (s : State) : Host.Outcome State Fault Refusal :=
  acceptWhenReady (fun s => setResult (bit (s.latched.channels == 2)) s) s

/-- QUERY_RATE, 0x6 (R112). -/
def execQueryRate (s : State) : Host.Outcome State Fault Refusal :=
  acceptWhenReady (fun s => setResult s.latched.rate s) s

/-- RELEASE, 0x7 (R113). -/
def execRelease (s : State) : Host.Outcome State Fault Refusal := acceptWhenReady release s

end Sys2Proof.Machine
end

