-- ==== Sys2Proof/Machine/MsAdpcm.lean ====
section
/-! DEFINITION. Microsoft standard ADPCM (44_ms_adpcm.md). -/

namespace Sys2Proof.Machine

/-- `SelectCoeffs(c)` on a channel's registers (R181). -/
def selectCoeffs (v : MsChan) : MsChan :=
  { v with coeff1 := s16 (msCoeff1.getD v.pred.toNat 0), coeff2 := s16 (msCoeff2.getD v.pred.toNat 0) }

/-- The predictor bytes of an MSADPCM header, one a channel, each with its coefficient pair (R182). -/
def readPreds : List Chan → State → State
  | [], s => s
  | c :: cs, s =>
    let r := srcReadByte s
    readPreds cs (setMs c (selectCoeffs { r.2.ms.get c with pred := clampPred r.1 }) r.2)

/-- One 16-bit field of an MSADPCM header for every channel; `acc` holds the values read (R182). -/
def readFields : List Chan → PerChan Sample → State → PerChan Sample × State
  | [], acc, s => (acc, s)
  | c :: cs, acc, s =>
    let r := srcRead16 s
    readFields cs (acc.set c r.1) r.2

/-- `delta[c] <-` the field read, sign-extended and not floored (R182). -/
def storeDeltas : List Chan → PerChan Sample → State → State
  | [], _, s => s
  | c :: cs, d, s => storeDeltas cs d (setMs c { s.ms.get c with delta := (d.get c).signExtend 32 } s)

/-- A channel's registers with header fields A and B in the order of the parameter (R79, R182). -/
def withHeaderSamples (o : SampleOrder) (a b : Sample) (v : MsChan) : MsChan :=
  match o with
  | .doc => { v with sample2 := a, sample1 := b }
  | .std => { v with sample1 := a, sample2 := b }

/-- Fields A and B into `sample1[c]` and `sample2[c]` (R182). -/
def storeSamples (o : SampleOrder) : List Chan → PerChan Sample → PerChan Sample → State → State
  | [], _, _, s => s
  | c :: cs, a, b, s =>
    storeSamples o cs a b (setMs c (withHeaderSamples o (a.get c) (b.get c) (s.ms.get c)) s)

/-- `OutWrite(s, r[c]); s <- s + 1` for every channel, `r` one of the sample registers (R182). -/
def emitRegs (field : MsChan → Sample) : List Chan → State → Res Unit
  | [], s => .done () s
  | c :: cs, s =>
    (outWrite s.outCount.toNat (field (s.ms.get c)) s).andThen fun _ t => emitRegs field cs (addCount 1 t)

/-- The reads and register writes of a header, before its samples are written (R182). -/
def loadHeader (o : SampleOrder) (s : State) : State :=
  let cs := channelList s
  let p := readPreds cs s
  let d := readFields cs ⟨0, 0⟩ p
  let a := readFields cs ⟨0, 0⟩ (storeDeltas cs d.1 d.2)
  let b := readFields cs ⟨0, 0⟩ a.2
  storeSamples o cs a.1 b.1 b.2

/-- `MSADPCM_HDR()` (R182) under one order of the header samples. -/
def msadpcmHdr (o : SampleOrder) (s : State) : Res Unit :=
  if s.outCount.toNat + 2 * s.latched.channels.toNat > s.reqN.toNat then .raised (raise .outputOverrun s)
  else
    (emitRegs MsChan.sample2 (channelList s) (loadHeader o s)).andThen fun _ t =>
      (emitRegs MsChan.sample1 (channelList s) t).andThen fun _ t =>
        .done () (setBlockPos (7 * s.latched.channels) t)

/-- MSADPCM_HDR (R182). -/
def execMsadpcmHdr (s : State) : Host.Outcome State Fault Refusal := (msadpcmHdr msHdrSampleOrder s).outcome

/-- `tdiv(sample1 * coeff1 + sample2 * coeff2, 256)`'s dividend (R184). -/
def msWeighted (v : MsChan) : Int := v.sample1.toInt * v.coeff1.toInt + v.sample2.toInt * v.coeff2.toInt

/-- `sext_4(code) * delta` (R184). -/
def msStep (code : Code) (v : MsChan) : Int := sext4 code * v.delta.toInt

/-- The prediction with the step added, before the clamp (R184). -/
def msSum (code : Code) (v : MsChan) : Int := tdiv256 (msWeighted v) + msStep code v

/-- `MS_ADAPT[code] * delta` (R184). -/
def msProduct (code : Code) (v : MsChan) : Int := msAdapt code * v.delta.toInt

/-- An intermediate is outside s32 (R184). -/
def msOverflow (code : Code) (v : MsChan) : Bool :=
  !(inS32 (msWeighted v) && inS32 (msStep code v) && inS32 (msSum code v) && inS32 (msProduct code v))

/-- The new delta (R184): the product shifted, stored into the delta's width, floored at 16. -/
def msDelta (bits : DeltaBits) (code : Code) (v : MsChan) : Int :=
  let d := sar8 (msProduct code v)
  let d := match bits with
    | .bits16 => wrap16 d
    | .bits32 => d
  if d < 16 then 16 else d

/-- The registers of a channel after a code (R184). -/
def msNext (bits : DeltaBits) (code : Code) (v : MsChan) : MsChan :=
  { v with
    sample2 := v.sample1
    sample1 := s16 (clamp (msSum code v) (-32768) 32767)
    delta := s32 (msDelta bits code v) }

/-- `DECODE_MS(c, code)` (R184) under one width of the delta: the overflow check precedes every write; the sample is
the new `sample1[c]`. -/
def decodeMs (bits : DeltaBits) (c : Chan) (code : Code) (s : State) : Res Sample :=
  let v := s.ms.get c
  if bits = .bits32 ∧ msOverflow code v then .raised (raise .deltaOverflow s)
  else .done (msNext bits code v).sample1 (setMs c (msNext bits code v) s)

/-- `OutWrite(i, DECODE_MS(c, code))`. -/
def emitMs (bits : DeltaBits) (i : Nat) (c : Chan) (code : Code) (s : State) : Res Unit :=
  (decodeMs bits c code s).andThen fun v s => outWrite i v s

/-- DECODE_MS (R184). The sample it returns stands in `sample1[c]` (log entry 13). -/
def execDecodeMs (c : Chan) (code : Code) (s : State) : Host.Outcome State Fault Refusal :=
  (decodeMs Config.msDeltaBits c code s).outcome

/-- `MSADPCM_BYTE()` (R185): high nibble on channel 0, low nibble on channel `CHANNELS - 1`. -/
def msadpcmByte (bits : DeltaBits) (s : State) : Res Unit :=
  let r := srcReadByte s
  (emitMs bits s.outCount.toNat .c0 (hiNibble r.1) (setBlockPos (r.2.blockPos.ch0 + 1) r.2)).andThen fun _ t =>
    (emitMs bits (s.outCount.toNat + 1) (lastChan s) (loNibble r.1) t).andThen fun _ t =>
      .done () (addCount 2 t)

/-- MSADPCM_BYTE (R185). -/
def execMsadpcmByte (s : State) : Host.Outcome State Fault Refusal :=
  (msadpcmByte Config.msDeltaBits s).outcome

end Sys2Proof.Machine
end

