-- ==== Sys2Proof/Machine/Ima.lean ====
section
/-! DEFINITION. The IMA decode primitive and the plain IMA reader (41_ima.md). -/

namespace Sys2Proof.Machine

/-- The signed difference of a code at a step size (R132): `E = ((2*M + 1) * step) / 8`, subtracted if bit 3 is set. -/
def imaDiff (code : Code) (step : Int) : Int :=
  let e := (2 * ((codeMag code).toNat : Int) + 1) * step / 8
  if codeSign code then -e else e

/-- The registers of a channel after a code, for a step index in 0 to 88 (R132). -/
def imaNext (code : Code) (v : ImaChan) : ImaChan where
  last := s32 (clamp (v.last.toInt + imaDiff code (imaStep v.stepIndex.toInt)) (-32768) 32767)
  stepIndex := s32 (clamp (v.stepIndex.toInt + stepAdjust code) 0 88)

/-- The step index can be looked up (R132). -/
def stepIndexOk (v : ImaChan) : Bool := 0 ≤ v.stepIndex.toInt && v.stepIndex.toInt ≤ 88

/-- `DECODE_IMA(code, c)` (R132): the range check precedes every write; the sample is the new `last[c]`. -/
def decodeIma (code : Code) (c : Chan) (s : State) : Res Sample :=
  let v := s.ima.get c
  if stepIndexOk v then .done (s16 (imaNext code v).last.toInt) (setIma c (imaNext code v) s)
  else .raised (raise .stepIndexRange s)

/-- `OutWrite(i, DECODE_IMA(code, c))`. -/
def emitIma (i : Nat) (code : Code) (c : Chan) (s : State) : Res Unit :=
  (decodeIma code c s).andThen fun v s => outWrite i v s

/-- DECODE_IMA (R132). The sample it returns stands in `last[c]` (log entry 13). -/
def execDecodeIma (code : Code) (c : Chan) (s : State) : Host.Outcome State Fault Refusal :=
  (decodeIma code c s).outcome

/-- `IMA_BYTE()` (R135): the high nibble for channel 0, then the low nibble for the last channel. -/
def imaByte (s : State) : Res Unit :=
  let r := srcReadByte s
  (emitIma s.outCount.toNat (hiNibble r.1) .c0 r.2).andThen fun _ t =>
    (emitIma (s.outCount.toNat + 1) (loNibble r.1) (lastChan s) t).andThen fun _ t =>
      .done () (addCount 2 t)

/-- IMA_BYTE (R135). -/
def execImaByte (s : State) : Host.Outcome State Fault Refusal := (imaByte s).outcome

end Sys2Proof.Machine
end

