-- ==== Sys2Proof/Machine/MsIma.lean ====
section
/-! DEFINITION. Microsoft IMA, mono (42_ms_ima_mono.md) and stereo (43_ms_ima_stereo.md). -/

namespace Sys2Proof.Machine

/-- `MSIMA_HDR()` (R151): `last[0]` and `stepIndex[0]` are loaded as read, sign-extended and unclamped. -/
def msimaHdr (s : State) : State :=
  let r0 := srcRead16 s
  let r1 := srcRead16 r0.2
  setBlockPos 4 (setIma .c0 ⟨r0.1.signExtend 32, r1.1.signExtend 32⟩ r1.2)

/-- MSIMA_HDR (R151). -/
def execMsimaHdr (s : State) : Host.Outcome State Fault Refusal := .next (msimaHdr s)

/-- `MSIMA_BYTE()` (R152): the counter advances by one a byte (R154); the low nibble is decoded first. -/
def msimaByte (s : State) : Res Unit :=
  let r := srcReadByte s
  (emitIma s.outCount.toNat (loNibble r.1) .c0 (setBlockPos (r.2.blockPos.ch0 + 1) r.2)).andThen fun _ t =>
    (emitIma (s.outCount.toNat + 1) (hiNibble r.1) .c0 t).andThen fun _ t =>
      .done () (addCount 2 t)

/-- MSIMA_BYTE (R152). -/
def execMsimaByte (s : State) : Host.Outcome State Fault Refusal := (msimaByte s).outcome

/-- The nibbles of a group's word in order, for k from `k` on: nibble k goes to `OUT[base + 2k]` (R166). -/
def emitNibbles (c : Chan) (w : U32) (base : Nat) : List Nat → State → Res Unit
  | [], s => .done () s
  | k :: ks, s => (emitIma (base + 2 * k) (wordNibble w k) c s).andThen fun _ t => emitNibbles c w base ks t

/-- One channel's part of a group: its word, then its eight codes into `OUT[base + c + 2k]` (R166). -/
def groupChannel (c : Chan) (base : Nat) (s : State) : Res Unit :=
  let r := srcRead32 s
  emitNibbles c r.1 (base + chanNum c) [0, 1, 2, 3, 4, 5, 6, 7] r.2

/-- `MSIMA_GROUP()` (R166). -/
def msimaGroup (s : State) : Res Unit :=
  (groupChannel .c0 s.outCount.toNat s).andThen fun _ t =>
    (groupChannel .c1 s.outCount.toNat t).andThen fun _ t => .done () (addCount 16 t)

/-- MSIMA_GROUP (R166). -/
def execMsimaGroup (s : State) : Host.Outcome State Fault Refusal := (msimaGroup s).outcome

end Sys2Proof.Machine
end

