-- ==== Sys2Proof/Machine/Dispatch.lean ====
section
/-! DEFINITION. What each instruction does: one arm a constructor, each a call of its meaning. -/

namespace Sys2Proof.Machine

def exec (i : Instr) (s : State) : Host.Outcome State Fault Refusal :=
  match i with
  | .configure => Sys2Proof.Machine.execConfigure s
  | .read => Sys2Proof.Machine.execRead s
  | .rewind => Sys2Proof.Machine.execRewind s
  | .queryEod => Sys2Proof.Machine.execQueryEod s
  | .queryStereo => Sys2Proof.Machine.execQueryStereo s
  | .queryRate => Sys2Proof.Machine.execQueryRate s
  | .release => Sys2Proof.Machine.execRelease s
  | .imaByte => Sys2Proof.Machine.execImaByte s
  | .msimaHdr => Sys2Proof.Machine.execMsimaHdr s
  | .msimaByte => Sys2Proof.Machine.execMsimaByte s
  | .msimaGroup => Sys2Proof.Machine.execMsimaGroup s
  | .msadpcmHdr => Sys2Proof.Machine.execMsadpcmHdr s
  | .msadpcmByte => Sys2Proof.Machine.execMsadpcmByte s
  | .decodeIma code c => Sys2Proof.Machine.execDecodeIma code c s
  | .decodeMs c code => Sys2Proof.Machine.execDecodeMs c code s

end Sys2Proof.Machine
end

