-- ==== Sys2Proof/Machine/Sequencer.lean ====
section
/-! DEFINITION. What drives the core: one iteration of READ_LOOP while a READ runs (40_base_and_commands.md R105), else
one action of the host (R100, 00_scope.md R7). -/

namespace Sys2Proof.Machine

/-- READ_LOOP's exit test, made once before each micro-operation (R105, D35). -/
def loopExit (s : State) : Bool := decide (s.outCount.toNat ≥ s.reqN.toNat) || endOfData s

/-- What the next micro-operation is decoded from (R82, R105). -/
def unitSelector (s : State) : Encoding := .unit s.latched.variant (s.blockPos.ch0 == s.latched.blockAlign)

/-- One iteration of `READ_LOOP()` (R105), or its end (R106). -/
def readIteration (s : State) : Host.Outcome State Fault Refusal :=
  if loopExit s then .next (finishRead s)
  else
    match decode (unitSelector s) with
    | .instr i => exec i s
    | .rejected _ => .fault .busyWithoutVariant

/-- A host write of `CMD` (R100): recorded (R26), decoded, run. -/
def writeCmd (w : U32) (s : State) : Host.Outcome State Fault Refusal :=
  match decode (.cmd w) with
  | .instr i => exec i { s with cmd := w }
  | .rejected _ => acceptIllegal { s with cmd := w }

/-- One action of the host (R7, R243). -/
def hostAction (a : HostAction) (s : State) : Host.Outcome State Fault Refusal :=
  match a with
  | .writeArg r v => .next (setArg r v s)
  | .writeCmd w => writeCmd w s
  | .bindSource before rest => bindSource before rest s
  | .bindOut samples => .next (bindOut samples s)
  | .hardwareReset => .next (hardwareReset s)

/-- The host's turn: its next pending action, or none, and the core keeps every register (R224). -/
def hostTurn (s : State) : Host.Outcome State Fault Refusal :=
  match s.host with
  | [] => .next s
  | a :: rest => hostAction a { s with host := rest }

/-- Log entry 5: the host's next action is a write of this word to `CMD`. No host action is taken in `BUSY`, so a
running READ is set aside. -/
def placeCmd (s : State) (nbits w : Nat) : State :=
  { s with
    host := .writeCmd (BitVec.ofNat 32 (w % 2 ^ nbits)) :: s.host
    mode := if s.mode = .busy then .ready else s.mode }

end Sys2Proof.Machine
end

