-- ==== Sys2Proof/Machine/Step.lean ====
section
/-! DEFINITION. One step of the machine. -/

namespace Sys2Proof.Machine

/-- In `BUSY` the core runs one iteration of the READ (R105), and the host gets no step (R21, R68); in every other mode
the host acts. -/
def step (s : State) : Host.Outcome State Fault Refusal :=
  if s.mode = .busy then readIteration s else hostTurn s

/-- The state in which `step` runs exactly this command word next. -/
def State.withFetchWord (s : State) (nbits w : Nat) : State := placeCmd s nbits w

end Sys2Proof.Machine
end

