-- ==== Sys2Proof/Safety.lean ====
section
/-! DEFINITION. What counts as a legal state of the core, and the terms the statements use: the bytes a unit reads and
the state after reading them. -/

namespace Sys2Proof.Machine

/-- The k-th byte read from state `s` on: a byte of the source while there is one (R55), then draws (R56). -/
def wireByte (s : State) (k : Nat) : Byte :=
  if k < s.src.len - s.pos then cellRead s.src.cells (s.pos + k)
  else Config.draw (s.drawIx + (k - (s.src.len - s.pos)))

/-- `s` after reading `n` bytes: only the read position, the exhaustion flag and the model's count of draws can
differ (R55, R56, R65). -/
def afterReads (n : Nat) (s : State) : State :=
  { s with
    pos := s.pos + min n (s.src.len - s.pos)
    eosFlag := s.eosFlag || decide (s.src.len - s.pos < n)
    drawIx := s.drawIx + (n - (s.src.len - s.pos)) }

/-- The sample at index `i` of the output sample space. -/
def outAt (s : State) (i : Nat) : Sample := cellRead s.out i

/-- The registers after a list of codes. -/
def imaAfter (codes : List Code) (v : ImaChan) : ImaChan := codes.foldl (fun v code => imaNext code v) v

/-- The eight codes of a group's word, in decode order (R78). -/
def groupCodes (w : U32) : List Code := [0, 1, 2, 3, 4, 5, 6, 7].map (wordNibble w)

/-- The words of a group read from `s` on: W0 for channel 0, then W1 for channel 1 (R78). -/
def groupWordAt (s : State) : Chan → U32
  | .c0 => le32 (wireByte s 0) (wireByte s 1) (wireByte s 2) (wireByte s 3)
  | .c1 => le32 (wireByte s 4) (wireByte s 5) (wireByte s 6) (wireByte s 7)

/-- The 16-bit field whose first byte is the k-th byte read from `s` on (R57, R62). -/
def wireField (s : State) (k : Nat) : Sample := le16 (wireByte s k) (wireByte s (k + 1))

/-- The bytes the next unit of a READ takes and the samples it gives (R82 and its byte layouts R75 to R79). -/
def unitSize (s : State) : Nat × Nat :=
  let atHeader := s.blockPos.ch0 = s.latched.blockAlign
  match s.latched.variant with
  | .unset => (0, 0)
  | .ima => (1, 2)
  | .msima1 => if atHeader then (4, 0) else (1, 2)
  | .msima2 => (8, 16)
  | .msadpcm => if atHeader then (7 * s.latched.channels.toNat, 2 * s.latched.channels.toNat) else (1, 2)

/-- The samples of plain IMA payload bytes and the predictors they leave, one byte after the other (R75, R135). -/
def plainIma (stereo : Bool) : List Byte → PerChan ImaChan → List Int × PerChan ImaChan
  | [], p => ([], p)
  | b :: bs, p =>
    let p1 := p.set .c0 (imaNext (hiNibble b) p.ch0)
    let c := if stereo then Chan.c1 else Chan.c0
    let p2 := p1.set c (imaNext (loNibble b) (p1.get c))
    let rest := plainIma stereo bs p2
    (p1.ch0.last.toInt :: (p2.get c).last.toInt :: rest.1, rest.2)

/-- `t` is `s` after a fault of this code (R212): the code is recorded, the core is `FAULTED`, and every other register
is as the command left it. `N` and `s` hold no value outside a READ (R39), so nothing is said of them. -/
def FaultTaken (code : BitVec 8) (s t : State) : Prop :=
  t = { s with mode := .faulted, faultCode := code, reqN := t.reqN, outCount := t.outCount }

/-- `t` is `s` after the end of its READ (R106): `RESULT <- s`, `MODE <- READY`. Of `N` and `s` nothing is said
(R39). -/
def ReadEnded (s t : State) : Prop :=
  t = { s with mode := .ready, result := s.outCount, reqN := t.reqN, outCount := t.outCount }

/-- The two states differ at most in `CMD`, `RESULT` and the history of events. -/
def SameButReports (s t : State) : Prop :=
  t = { s with cmd := t.cmd, result := t.result, events := t.events }

/-- The same kind of outcome, with next states that differ at most in their reports. -/
def SameOutcome (x y : Host.Outcome State Fault Refusal) : Prop :=
  match x, y with
  | .next s, .next t => SameButReports s t
  | .fault f, .fault g => f = g
  | .refused q, .refused r => q = r
  | _, _ => False

/-- Both spaces are in canonical form; a source byte stands below `SRC_LEN` and the source's position is one of its
positions (R50). -/
def SpacesOk (s : State) : Prop :=
  Memory.wf s.src.cells ∧ OutSpace.wf s.out ∧ (∀ x ∈ s.src.cells, x.1 < s.src.len) ∧ s.src.position ≤ s.src.len

/-- `FAULT_CODE` is nonzero exactly in `FAULTED` and is one of the eleven codes (R210, R212). -/
def FaultOk (s : State) : Prop := (s.mode = .faulted ↔ s.faultCode ≠ 0) ∧ s.faultCode.toNat ≤ 11

/-- The latched configuration of a decoder is one CONFIGURE accepts (R73, R101, R102). -/
def LatchedOk (l : Latched) : Prop :=
  (l.channels = 1 ∨ l.channels = 2) ∧ l.startPos ≤ l.endPos ∧
    match l.variant with
    | .unset => False
    | .ima => l.format = 1
    | .msima1 => l.format = 2 ∧ l.channels = 1 ∧ 4 ≤ l.blockAlign.toNat
    | .msima2 => l.format = 2 ∧ l.channels = 2 ∧ l.blockAlign ≠ 0
    | .msadpcm => l.format = 3 ∧ 7 * l.channels.toNat ≤ l.blockAlign.toNat

/-- A decoder lives in `READY` and `BUSY` and not in `UNCONFIGURED` (R21); where one lives its configuration is legal
and `pos` is a position of the source from `START` on (R28, R50), and where none lives its registers are 0 (R45,
R113). -/
def InstanceOk (s : State) : Prop :=
  (s.mode = .ready ∨ s.mode = .busy → hasInstance s = true) ∧ (s.mode = .unconfigured → hasInstance s = false) ∧
    (hasInstance s = true → LatchedOk s.latched ∧ s.latched.startPos ≤ s.pos ∧ s.pos ≤ s.src.len) ∧
    (hasInstance s = false → s.latched = Latched.zero ∧ s.pos = 0 ∧ s.eosFlag = false ∧ s.blockPos = ⟨0, 0⟩ ∧
      s.ima = ⟨ImaChan.zero, ImaChan.zero⟩ ∧ s.ms = ⟨MsChan.zero, MsChan.zero⟩)

/-- `blockPos[1]` keeps its CONFIGURE value, the unblocked variants keep both, and `blockPos[0]` lies between the
header size and `BLOCK_ALIGN` (R30). -/
def BlockPosOk (s : State) : Prop :=
  hasInstance s = true →
    s.blockPos.ch1 = s.latched.blockAlign ∧ s.blockPos.ch0.toNat ≤ s.latched.blockAlign.toNat ∧
      match s.latched.variant with
      | .msima1 => 4 ≤ s.blockPos.ch0.toNat
      | .msadpcm => 7 * s.latched.channels.toNat ≤ s.blockPos.ch0.toNat
      | _ => s.blockPos.ch0 = s.latched.blockAlign

/-- `last[c]` is a 16-bit sample value, `stepIndex[c]` a value a header can hold, and within the step table for every
channel no MSIMA1 header loads (R32, R33). -/
def ImaOk (s : State) : Prop :=
  ∀ c, -32768 ≤ (s.ima.get c).last.toInt ∧ (s.ima.get c).last.toInt ≤ 32767 ∧
    -32768 ≤ (s.ima.get c).stepIndex.toInt ∧ (s.ima.get c).stepIndex.toInt ≤ 32767 ∧
    (s.latched.variant ≠ .msima1 ∨ c = .c1 → stepIndexOk (s.ima.get c) = true)

/-- `pred[c]` is at most 6, the coefficient pair is its entry of the tables once a header was read (0 before), and a
16-bit delta holds a 16-bit value (R34, R35, R36, R45). -/
def MsOk (s : State) : Prop :=
  ∀ c, (s.ms.get c).pred.toNat ≤ 6 ∧
    (s.ms.get c = selectCoeffs (s.ms.get c) ∨ ((s.ms.get c).coeff1 = 0 ∧ (s.ms.get c).coeff2 = 0)) ∧
    (Config.msDeltaBits = .bits16 →
      -32768 ≤ (s.ms.get c).delta.toInt ∧ (s.ms.get c).delta.toInt ≤ 32767)

/-- The request multiple of a variant (R104). -/
def requestUnit (v : Variant) : Nat := if v = .msima2 then 16 else 2

/-- In `BUSY`, `s <= N` and both are multiples of the variant's unit (R106, R216); outside a READ neither holds a
value (R39; log entry 6). -/
def RequestOk (s : State) : Prop :=
  (s.mode = .busy → s.outCount.toNat ≤ s.reqN.toNat ∧ s.reqN.toNat % requestUnit s.latched.variant = 0 ∧
    s.outCount.toNat % requestUnit s.latched.variant = 0) ∧
  (s.mode ≠ .busy → s.reqN = 0 ∧ s.outCount = 0)

/-- A legal state of the machine. -/
def Legal (s : State) : Prop :=
  SpacesOk s ∧ FaultOk s ∧ InstanceOk s ∧ BlockPosOk s ∧ ImaOk s ∧ MsOk s ∧ RequestOk s

end Sys2Proof.Machine
end

