-- ==== Sys2Proof/Certificates/Slice0/Obligations.lean ====
section
/-! DEFINITION. The statements for the provers. Each docstring names the rule of spec/ it states. -/

open Sys2Proof Sys2Proof.Machine

/-! ### Encoding -/

/-- The seven command words, and the fields of one (R70, R71, R86). -/
def Obligations.CommandWordsDecode : Prop :=
  decode (.cmd 0x00000001) = .instr .configure ∧ decode (.cmd 0x00000002) = .instr .read ∧
  decode (.cmd 0x00000003) = .instr .rewind ∧ decode (.cmd 0x00000004) = .instr .queryEod ∧
  decode (.cmd 0x00000005) = .instr .queryStereo ∧ decode (.cmd 0x00000006) = .instr .queryRate ∧
  decode (.cmd 0x00000007) = .instr .release ∧
  decode (.unit .ima false) = .instr .imaByte ∧ decode (.unit .ima true) = .instr .imaByte ∧
  decode (.unit .msima1 true) = .instr .msimaHdr ∧ decode (.unit .msima1 false) = .instr .msimaByte ∧
  decode (.unit .msima2 true) = .instr .msimaGroup ∧ decode (.unit .msima2 false) = .instr .msimaGroup ∧
  decode (.unit .msadpcm true) = .instr .msadpcmHdr ∧ decode (.unit .msadpcm false) = .instr .msadpcmByte

/-- R72: the illegal command words are exactly those with `OP` in 0x0, 0x8 .. 0xF or `ZERO` not 0, and writing one in
`UNCONFIGURED` or `READY` raises `ILLEGAL_COMMAND`; every other word is a command, so there is no hint, custom or no-op
word. -/
def Obligations.IllegalCommandWords : Prop :=
  ∀ w : U32,
    ((w.toNat % 16 = 0 ∨ 8 ≤ w.toNat % 16 ∨ w.toNat / 16 ≠ 0) →
      (∀ i, decode (.cmd w) ≠ .instr i) ∧
      ∀ s rest, s.host = .writeCmd w :: rest → (s.mode = .unconfigured ∨ s.mode = .ready) →
        ∃ t, step s = .next t ∧ FaultTaken 7 { s with host := rest, cmd := w } t) ∧
    (¬(w.toNat % 16 = 0 ∨ 8 ≤ w.toNat % 16 ∨ w.toNat / 16 ≠ 0) →
      ∃ i ∈ [Instr.configure, .read, .rewind, .queryEod, .queryStereo, .queryRate, .release],
        decode (.cmd w) = .instr i)

/-- Decoding what the encoder gives is the instruction, for every instruction and operand, and a command word has no
other reading: an instruction decoded from a word encodes to that word (R70, R71, R74, R82). -/
def Obligations.EncodeDecodeRoundTrip : Prop :=
  (∀ i : Instr, decode (encode i) = .instr i) ∧
  ∀ (w : U32) (i : Instr), decode (.cmd w) = .instr i → encode i = .cmd w

/-- The decoder gives an instruction for exactly the legal encodings (R72, R82, R84). -/
def Obligations.DecodesExactlyLegalEncodings : Prop :=
  ∀ e : Encoding, (∃ i, decode e = .instr i) ↔ e.wellFormed = true

/-- Nibble k of an MSIMA2 word runs from the high nibble of its last byte to the low nibble of its first (R62, R78),
and a word or payload byte put together from codes gives them back. -/
def Obligations.NibbleOrder : Prop :=
  (∀ b0 b1 b2 b3 : Byte, groupCodes (le32 b0 b1 b2 b3) =
    [hiNibble b3, loNibble b3, hiNibble b2, loNibble b2, hiNibble b1, loNibble b1, hiNibble b0, loNibble b0]) ∧
  (∀ k0 k1 k2 k3 k4 k5 k6 k7 : Code,
    groupCodes (groupWord k0 k1 k2 k3 k4 k5 k6 k7) = [k0, k1, k2, k3, k4, k5, k6, k7]) ∧
  (∀ hi lo : Code, hiNibble (payloadByte hi lo) = hi ∧ loNibble (payloadByte hi lo) = lo)

/-! ### Reading the source -/

/-- R55 and R56: a read below `SRC_LEN` returns the byte at `pos` and advances `pos`; a read at or past it sets
`eosFlag`, leaves `pos` and returns a free byte. -/
def Obligations.SourceReadByte : Prop :=
  ∀ s : State,
    (s.pos < s.src.len → srcReadByte s = (cellRead s.src.cells s.pos, { s with pos := s.pos + 1 })) ∧
    (s.src.len ≤ s.pos → ∃ n, srcReadByte s = (Config.draw s.drawIx, { s with eosFlag := true, drawIx := n }))

/-- R57: two bytes in order, the first the low one, as a signed 16-bit number. -/
def Obligations.Read16LittleEndian : Prop :=
  ∀ s : State,
    let b0 := (srcReadByte s).1.toNat
    let b1 := (srcReadByte (srcReadByte s).2).1.toNat
    (srcRead16 s).1.toInt = (if b1 < 128 then (b0 + 256 * b1 : Int) else (b0 + 256 * b1 : Int) - 65536) ∧
    (srcRead16 s).2 = (srcReadByte (srcReadByte s).2).2

/-- R58: four bytes in order, the first the lowest, as an unsigned 32-bit number. -/
def Obligations.Read32LittleEndian : Prop :=
  ∀ s : State,
    (srcRead32 s).1.toNat = (wireByte s 0).toNat + 256 * (wireByte s 1).toNat + 65536 * (wireByte s 2).toNat +
      16777216 * (wireByte s 3).toNat ∧
    (srcRead32 s).2 = afterReads 4 s

/-! ### The machine's step -/

/-- When the host's next action writes a word to `CMD` that decodes to a command, `step` records the word, takes the
action off the host's list and is that command's `exec`. -/
def Obligations.StepRunsDecodedCommand : Prop :=
  ∀ (s : State) (w : U32) (rest : List HostAction) (i : Instr),
    s.mode ≠ .busy → s.host = .writeCmd w :: rest → decode (.cmd w) = .instr i →
      step s = exec i { s with host := rest, cmd := w }

/-- R105: while a READ runs, `step` is one iteration of READ_LOOP: the exit test once, before the micro-operation, then
the micro-operation of the variant, a header where `blockPos[0] = BLOCK_ALIGN`. That a step is one iteration is the
model's choice (log entry 1). -/
def Obligations.StepRunsReadLoop : Prop :=
  ∀ s : State, s.mode = .busy →
    ((s.reqN.toNat ≤ s.outCount.toNat ∨ endOfData s = true) → ∃ t, step s = .next t ∧ ReadEnded s t) ∧
    (s.outCount.toNat < s.reqN.toNat → endOfData s = false →
      (s.latched.variant = .ima → step s = exec .imaByte s) ∧
      (s.latched.variant = .msima1 → s.blockPos.ch0 = s.latched.blockAlign → step s = exec .msimaHdr s) ∧
      (s.latched.variant = .msima1 → s.blockPos.ch0 ≠ s.latched.blockAlign → step s = exec .msimaByte s) ∧
      (s.latched.variant = .msima2 → step s = exec .msimaGroup s) ∧
      (s.latched.variant = .msadpcm → s.blockPos.ch0 = s.latched.blockAlign → step s = exec .msadpcmHdr s) ∧
      (s.latched.variant = .msadpcm → s.blockPos.ch0 ≠ s.latched.blockAlign → step s = exec .msadpcmByte s))

/-- R106: a READ whose loop exits without a fault leaves the count of samples written in `RESULT`, at most `N`, and the
core is `READY`. That the count is even, and for MSIMA2 a multiple of 16, is the spec's own inference ("[derived: from
rule R104 and the sample counts of 30_encoding.md rule R82]"). -/
def Obligations.ReadResultIsBounded : Prop :=
  ∀ s : State, Legal s → s.mode = .busy → (s.reqN.toNat ≤ s.outCount.toNat ∨ endOfData s = true) →
    ∃ t, step s = .next t ∧ ReadEnded s t ∧ t.result.toNat ≤ s.reqN.toNat ∧ t.result.toNat % 2 = 0 ∧
      (s.latched.variant = .msima2 → t.result.toNat % 16 = 0)

/-- A host write of an argument register stores the value there, leaves the nine other host registers' contents and
every register of the decoder, and starts nothing (R22; that a write in `FAULTED` is stored too is the model's
inference, log entry 19); without a pending action the core keeps every register (R224; that an empty list of the host's
actions is no action is the model's choice, log entry 5). -/
def Obligations.ArgumentRegisterWrites : Prop :=
  ∀ s : State, s.mode ≠ .busy →
    (s.host = [] → step s = .next s) ∧
    ∀ (r : ArgReg) (v : U32) (rest : List HostAction), s.host = .writeArg r v :: rest →
      ∃ t, step s = .next t ∧ hostRead (.arg r) t = v ∧
        (∀ q, q ≠ HostReg.arg r → hostRead q t = hostRead q s) ∧ t = { s with host := rest, args := t.args }

/-- R100: what a host write of `CMD` does in each mode. In `BUSY` there is no host step: the step is the READ's, and
the host's list is kept. -/
def Obligations.CommandAcceptance : Prop :=
  ∀ (s : State) (w : U32) (rest : List HostAction), s.host = .writeCmd w :: rest →
    (s.mode = .busy → ∀ t, step s = .next t → t.host = s.host) ∧
    (s.mode = .faulted → step s = .next { s with host := rest, cmd := w }) ∧
    (s.mode = .unconfigured ∨ s.mode = .ready →
      if w.toNat / 16 ≠ 0 ∨ ¬(1 ≤ w.toNat % 16 ∧ w.toNat % 16 ≤ 7) then
        ∃ t, step s = .next t ∧ FaultTaken 7 { s with host := rest, cmd := w } t
      else if s.mode = .unconfigured ∧ w.toNat % 16 ≠ 1 then
        ∃ t, step s = .next t ∧ FaultTaken 5 { s with host := rest, cmd := w } t
      else if s.mode = .ready ∧ w.toNat % 16 = 1 then
        ∃ t, step s = .next t ∧ FaultTaken 6 { s with host := rest, cmd := w } t
      else
        ∃ i, [Instr.configure, .read, .rewind, .queryEod, .queryStereo, .queryRate, .release][w.toNat % 16 - 1]? =
          some i ∧ step s = exec i { s with host := rest, cmd := w })

/-- R214: in `FAULTED` a `CMD` write is recorded and has no other effect, no fault can be raised, and only hardware
reset leaves the mode. -/
def Obligations.FaultedUntilReset : Prop :=
  ∀ s : State, s.mode = .faulted →
    (∀ (w : U32) (rest : List HostAction), s.host = .writeCmd w :: rest →
      step s = .next { s with host := rest, cmd := w }) ∧
    (∀ t, step s = .next t → s.host.head? ≠ some .hardwareReset →
      t.mode = .faulted ∧ t.faultCode = s.faultCode) ∧
    (∀ rest, s.host = .hardwareReset :: rest → ∃ t, step s = .next t ∧ t.mode = .unconfigured)

/-- R240: hardware reset puts every register at its reset value, and it is the only event that leaves `FAULTED`. -/
def Obligations.HardwareResetValues : Prop :=
  (∀ (s : State) (rest : List HostAction), s.mode ≠ .busy → s.host = .hardwareReset :: rest →
    ∃ t, step s = .next t ∧ t.mode = .unconfigured ∧ t.faultCode = 0 ∧ t.cmd = 0 ∧ t.result = 0 ∧ statusWord t = 0 ∧
      t.args = ⟨0, 0, 0, 0, 0, 0, 0⟩ ∧ t.latched = ⟨0, 0, 0, 0, 0, 0, false, .unset⟩ ∧ t.pos = 0 ∧ t.eosFlag = false ∧
      t.blockPos = ⟨0, 0⟩ ∧ t.ima = ⟨⟨0, 0⟩, ⟨0, 0⟩⟩ ∧ t.ms = ⟨⟨0, 0, 0, 0, 0, 0⟩, ⟨0, 0, 0, 0, 0, 0⟩⟩) ∧
  ∀ s t : State, s.mode = .faulted → step s = .next t → t.mode ≠ .faulted → s.host.head? = some .hardwareReset

/-- The reset state holds the values of R45's first column, and `STATUS` reads 0. -/
def Obligations.ResetRegisterValues : Prop :=
  State.reset.mode = .unconfigured ∧ (∀ r : HostReg, hostRead r State.reset = 0) ∧ State.reset.faultCode = 0 ∧
  State.reset.latched = ⟨0, 0, 0, 0, 0, 0, false, .unset⟩ ∧ State.reset.pos = 0 ∧ State.reset.eosFlag = false ∧
  State.reset.blockPos = ⟨0, 0⟩ ∧ State.reset.ima = ⟨⟨0, 0⟩, ⟨0, 0⟩⟩ ∧
  State.reset.ms = ⟨⟨0, 0, 0, 0, 0, 0⟩, ⟨0, 0, 0, 0, 0, 0⟩⟩

/-- R23: every field of `STATUS`, for every state, and no host write of an argument register changes what it reads
as. -/
def Obligations.StatusRegisterFields : Prop :=
  (∀ s : State,
    let cfg : Bool := decide (s.mode = .ready ∨ s.mode = .busy)
    let status := hostRead .status s
    status.getLsbD 0 = cfg ∧ status.getLsbD 1 = decide (s.mode = .faulted) ∧
    status.getLsbD 2 = (cfg && endOfData s) ∧ status.getLsbD 3 = (cfg && decide (s.latched.channels = 2)) ∧
    status.toNat / 16 % 16 = (if cfg then
      match s.latched.variant with | .unset => 0 | .ima => 1 | .msima1 => 2 | .msima2 => 3 | .msadpcm => 4 else 0) ∧
    status.toNat / 256 % 256 = (if s.mode = .faulted then s.faultCode.toNat else 0) ∧
    status.toNat / 65536 = 0) ∧
  ∀ (s : State) (r : ArgReg) (v : U32) (rest : List HostAction), s.mode ≠ .busy → s.host = .writeArg r v :: rest →
    ∃ t, step s = .next t ∧ hostRead .status t = hostRead .status s

/-! ### Faults -/

/-- R212: raising a fault ends the command there, records the code (R210), makes the core `FAULTED`, keeps `RESULT`,
and the host reads it in `STATUS`. -/
def Obligations.FaultEntry : Prop :=
  ∀ (code : FaultCode) (s : State),
    FaultTaken (faultNum code) s (raise code s) ∧ (raise code s).result = s.result ∧
    (statusWord (raise code s)).toNat = 256 * (faultNum code).toNat + 2 ∧
    1 ≤ (faultNum code).toNat ∧ (faultNum code).toNat ≤ 11 ∧
    ∀ (f : Sample → State → Res Unit), ((Res.raised (raise code s)).andThen f).outcome = .next (raise code s)

/-- R60 on one write: at an index `>= N` it faults `OUTPUT_OVERRUN`; else it writes that element and no other. -/
def Obligations.OutputWrite : Prop :=
  ∀ (i : Nat) (v : Sample) (s : State),
    (s.reqN.toNat ≤ i → ∃ t, outWrite i v s = .raised t ∧ FaultTaken 10 s t) ∧
    (i < s.reqN.toNat → OutSpace.wf s.out →
      ∃ t, outWrite i v s = .done () t ∧ t = { s with out := t.out } ∧ outAt t i = v ∧
        ∀ j, j ≠ i → outAt t j = outAt s j)

/-! ### Commands -/

/-- R101 (with R102 and R103): the checks in order, each before every state change; then the configuration is latched,
the derived state is initialised, and the core is `READY` with `RESULT` 0. -/
def Obligations.ConfigureChecksThenLatches : Prop :=
  ∀ s : State, s.mode = .unconfigured →
    let f := s.args.format
    let c := s.args.channels
    let b := s.args.blockAlign
    ∃ t, exec .configure s = .next t ∧
      if ¬(f = 1 ∨ f = 2 ∨ f = 3) then FaultTaken 1 s t
      else if ¬(c = 1 ∨ c = 2) then FaultTaken 3 s t
      else if (f = 2 ∨ f = 3) ∧ b = 0 then FaultTaken 2 s t
      else if f = 2 ∧ c = 1 ∧ b.toNat < 4 then FaultTaken 4 s t
      else if f = 3 ∧ b.toNat < 7 * c.toNat then FaultTaken 4 s t
      else t = { s with
        latched :=
          { format := f
            channels := c
            blockAlign := b
            rate := s.args.rate
            startPos := s.src.position
            endPos := s.src.position + s.args.size.toNat
            own := decide (s.args.own.toNat % 2 = 1)
            variant := if f = 1 then .ima else if f = 3 then .msadpcm else if c = 1 then .msima1 else .msima2 }
        pos := s.src.position
        eosFlag := false
        blockPos := ⟨b, b⟩
        ima := ⟨⟨0, 0⟩, ⟨0, 0⟩⟩
        ms := ⟨⟨0, 0, 0, 0, 0, 0⟩, ⟨0, 0, 0, 0, 0, 0⟩⟩
        mode := .ready
        result := 0 }

/-- READ before its loop (R104): `N` is latched, a count that is not a multiple of the variant's unit faults
`BAD_REQUEST_COUNT` before any read, and otherwise the request starts with `s` 0. That READ's `exec` ends there, in
`BUSY`, and leaves the loop to later steps is the model's choice (log entry 1). -/
def Obligations.ReadStartsRequest : Prop :=
  ∀ s : State, s.mode = .ready → s.latched.variant ≠ .unset →
    let n := s.args.reqCount.toNat
    ∃ t, exec .read s = .next t ∧
      if (s.latched.variant = .msima2 ∧ n % 16 ≠ 0) ∨ (s.latched.variant ≠ .msima2 ∧ n % 2 ≠ 0) then FaultTaken 8 s t
      else t = { s with reqN := s.args.reqCount, outCount := 0, mode := .busy }

/-- R108: REWIND initialises the derived state (R103) and succeeds. -/
def Obligations.RewindRestarts : Prop :=
  ∀ s : State, s.mode = .ready →
    exec .rewind s = .next { s with
      pos := s.latched.startPos
      eosFlag := false
      blockPos := ⟨s.latched.blockAlign, s.latched.blockAlign⟩
      ima := ⟨⟨0, 0⟩, ⟨0, 0⟩⟩
      ms := ⟨⟨0, 0, 0, 0, 0, 0⟩, ⟨0, 0, 0, 0, 0, 0⟩⟩
      result := 1 }

/-- After REWIND every register of the instance is as right after the CONFIGURE that latched the same configuration
(R109): what may differ is `CMD`, `RESULT`, and what belongs to the host. -/
def Obligations.RewindEqualsFreshConfigure : Prop :=
  ∀ c t s u : State, c.mode = .unconfigured → exec .configure c = .next t → t.mode = .ready → s.mode = .ready →
    s.latched = t.latched → exec .rewind s = .next u →
      u.mode = t.mode ∧ u.latched = t.latched ∧ u.pos = t.pos ∧ u.eosFlag = t.eosFlag ∧ u.blockPos = t.blockPos ∧
        u.ima = t.ima ∧ u.ms = t.ms

/-- R110 (with R53, R54): `RESULT` is 1 exactly at end of data, under the one meaning `EOS_MODE` has; nothing else
changes. -/
def Obligations.QueryEndOfData : Prop :=
  ∀ s : State, s.mode = .ready →
    exec .queryEod s = .next { s with result :=
      if (Config.eosMode = .atEnd ∧ s.src.len ≤ s.pos) ∨ (Config.eosMode = .afterShortRead ∧ s.eosFlag = true) ∨
        s.latched.endPos ≤ s.pos then 1 else 0 }

/-- The two meanings of exhaustion agree as long as no read was made past the source and the valid range lies inside
it (R53). -/
def Obligations.EosModesAgreeInsideSource : Prop :=
  ∀ s : State, s.latched.endPos ≤ s.src.len → s.eosFlag = false →
    endOfDataIn .atEnd s = endOfDataIn .afterShortRead s ∧
      (endOfDataIn .atEnd s = true ↔ s.latched.endPos ≤ s.pos)

/-- R111 and R112: the queries write `RESULT` and nothing else. -/
def Obligations.QueryStereoAndRate : Prop :=
  ∀ s : State, s.mode = .ready →
    exec .queryStereo s = .next { s with result := if s.latched.channels = 2 then 1 else 0 } ∧
    exec .queryRate s = .next { s with result := s.latched.rate }

/-- R113: RELEASE emits `SourceReleased` exactly when `OWN` is set, clears the instance and returns to
`UNCONFIGURED`. That the source's bytes and length stay, with `OWN` set too, is the model's choice (log entry 9). -/
def Obligations.ReleaseClearsInstance : Prop :=
  ∀ s : State, s.mode = .ready →
    ∃ t, exec .release s = .next t ∧ t.src.cells = s.src.cells ∧ t.src.len = s.src.len ∧
      t = { s with
        events := s.events ++ (if s.latched.own = true then [.sourceReleased] else [])
        src := t.src
        latched := ⟨0, 0, 0, 0, 0, 0, false, .unset⟩
        pos := 0
        eosFlag := false
        blockPos := ⟨0, 0⟩
        ima := ⟨⟨0, 0⟩, ⟨0, 0⟩⟩
        ms := ⟨⟨0, 0, 0, 0, 0, 0⟩, ⟨0, 0, 0, 0, 0, 0⟩⟩
        mode := .unconfigured
        result := 0 }

/-! ### The IMA family -/

/-- Every entry of R40's step table, what R40 says of it as a whole, and R41's table. The 87 inner entries are the
spec's from general knowledge (log entry 12). -/
def Obligations.ImaTablesShape : Prop :=
  imaSteps =
    [7, 8, 9, 10, 11, 12, 13, 14, 16, 17] ++ [19, 21, 23, 25, 28, 31, 34, 37, 41, 45] ++
    [50, 55, 60, 66, 73, 80, 88, 97, 107, 118] ++ [130, 143, 157, 173, 190, 209, 230, 253, 279, 307] ++
    [337, 371, 408, 449, 494, 544, 598, 658, 724, 796] ++ [876, 963, 1060, 1166, 1282, 1411, 1552, 1707, 1878, 2066] ++
    [2272, 2499, 2749, 3024, 3327, 3660, 4026, 4428, 4871, 5358] ++
    [5894, 6484, 7132, 7845, 8630, 9493, 10442, 11487, 12635, 13899] ++
    [15289, 16818, 18500, 20350, 22385, 24623, 27086, 29794, 32767] ∧
  imaSteps.length = 89 ∧ imaSteps.Pairwise (· < ·) ∧ imaSteps.head? = some 7 ∧ imaSteps.getLast? = some 32767 ∧
    stepAdjustTable = [-1, -1, -1, -1, 2, 4, 6, 8]

/-- R131: the change is the table's entry for the three magnitude bits, so the sign bit is ignored. -/
def Obligations.StepAdjustIgnoresSign : Prop :=
  ∀ code : Code, stepAdjustTable[code.toNat % 8]? = some (stepAdjust code)

/-- R132: DECODE_IMA faults `STEP_INDEX_RANGE` on an index outside [0, 88] with no register written; else it writes
the clamped sample and the clamped index of the channel, and nothing else. -/
def Obligations.DecodeImaResult : Prop :=
  ∀ (code : Code) (c : Chan) (s : State),
    let last := (s.ima.get c).last.toInt
    let index := (s.ima.get c).stepIndex.toInt
    (index < 0 ∨ 88 < index → ∃ t, exec (.decodeIma code c) s = .next t ∧ FaultTaken 9 s t) ∧
    ∀ step : Nat, 0 ≤ index → index ≤ 88 → imaSteps[index.toNat]? = some step →
      let e : Int := ((2 * (code.toNat % 8) + 1) * step / 8 : Nat)
      let diff : Int := if code.toNat / 8 = 1 then -e else e
      ∃ v : ImaChan, exec (.decodeIma code c) s = .next { s with ima := s.ima.set c v } ∧
        v.last.toInt = max (-32768) (min 32767 (last + diff)) ∧
        v.stepIndex.toInt = max 0 (min 88 (index + stepAdjust code))

/-- Every code from every state that does not fault gives a sample in [-32768, 32767] and an index in [0, 88], codes
that differ in the sign bit move the sample by opposite amounts before the clamp, and DECODE_IMA never stops (R133). -/
def Obligations.DecodeImaStaysInRange : Prop :=
  (∀ (code : Code) (c : Chan) (s : State), 0 ≤ (s.ima.get c).stepIndex.toInt → (s.ima.get c).stepIndex.toInt ≤ 88 →
    ∃ t, exec (.decodeIma code c) s = .next t ∧ t.mode = s.mode ∧
      -32768 ≤ (t.ima.get c).last.toInt ∧ (t.ima.get c).last.toInt ≤ 32767 ∧
      0 ≤ (t.ima.get c).stepIndex.toInt ∧ (t.ima.get c).stepIndex.toInt ≤ 88) ∧
  ∀ (m : BitVec 3) (i : Int), imaDiff (BitVec.ofBool true ++ m) (imaStep i) = -imaDiff (BitVec.ofBool false ++ m) (imaStep i)

/-- R135: IMA_BYTE reads one byte (a draw past the end) and writes two samples: the high nibble decoded for channel 0,
then the low nibble for channel 1 in stereo, for channel 0 again in mono, seeing the first's update. -/
def Obligations.ImaByteResult : Prop :=
  ∀ s : State, OutSpace.wf s.out → stepIndexOk s.ima.ch0 = true →
    (s.latched.channels = 2 → stepIndexOk s.ima.ch1 = true) → s.outCount.toNat + 2 ≤ s.reqN.toNat →
      let hi := hiNibble (wireByte s 0)
      let lo := loNibble (wireByte s 0)
      let first := imaNext hi s.ima.ch0
      let second := if s.latched.channels = 2 then imaNext lo s.ima.ch1 else imaNext lo first
      ∃ t, exec .imaByte s = .next t ∧
        t.ima = (if s.latched.channels = 2 then ⟨first, second⟩ else ⟨second, s.ima.ch1⟩) ∧
        (outAt t s.outCount.toNat).toInt = first.last.toInt ∧
        (outAt t (s.outCount.toNat + 1)).toInt = second.last.toInt ∧
        (∀ j, j ≠ s.outCount.toNat → j ≠ s.outCount.toNat + 1 → outAt t j = outAt s j) ∧
        t = { afterReads 1 s with ima := t.ima, out := t.out, outCount := s.outCount + 2 }

/-- R151 (fields of R76): four bytes, the first two the signed predictor, the next two the signed step index, stored
unclamped; no sample is written and channel 1 is untouched. It holds for every state, past the end too. -/
def Obligations.MsimaHeaderLoads : Prop :=
  ∀ s : State, ∃ t, exec .msimaHdr s = .next t ∧
    t.ima.ch0.last.toInt = (wireField s 0).toInt ∧ t.ima.ch0.stepIndex.toInt = (wireField s 2).toInt ∧
    t = { afterReads 4 s with ima := ⟨t.ima.ch0, s.ima.ch1⟩, blockPos := ⟨4, s.blockPos.ch1⟩ }

/-- R152: MSIMA_BYTE reads one byte, counts it, and writes two channel-0 samples, the low nibble's first. -/
def Obligations.MsimaByteResult : Prop :=
  ∀ s : State, OutSpace.wf s.out → stepIndexOk s.ima.ch0 = true → s.outCount.toNat + 2 ≤ s.reqN.toNat →
    let first := imaNext (loNibble (wireByte s 0)) s.ima.ch0
    let second := imaNext (hiNibble (wireByte s 0)) first
    ∃ t, exec .msimaByte s = .next t ∧
      (outAt t s.outCount.toNat).toInt = first.last.toInt ∧
      (outAt t (s.outCount.toNat + 1)).toInt = second.last.toInt ∧
      (∀ j, j ≠ s.outCount.toNat → j ≠ s.outCount.toNat + 1 → outAt t j = outAt s j) ∧
      t = { afterReads 1 s with
        blockPos := ⟨s.blockPos.ch0 + 1, s.blockPos.ch1⟩
        ima := ⟨second, s.ima.ch1⟩
        out := t.out
        outCount := s.outCount + 2 }

/-- R166: MSIMA_GROUP reads 8 bytes and writes 16 samples: the eight codes of each word, most significant nibble
first, channel c's k-th into `OUT[s + c + 2k]`. -/
def Obligations.MsimaGroupResult : Prop :=
  ∀ s : State, OutSpace.wf s.out → stepIndexOk s.ima.ch0 = true → stepIndexOk s.ima.ch1 = true →
    s.outCount.toNat + 16 ≤ s.reqN.toNat →
      ∃ t, exec .msimaGroup s = .next t ∧
        (∀ c, t.ima.get c = imaAfter (groupCodes (groupWordAt s c)) (s.ima.get c)) ∧
        (∀ c k, k < 8 → (outAt t (s.outCount.toNat + chanNum c + 2 * k)).toInt =
          (imaAfter ((groupCodes (groupWordAt s c)).take (k + 1)) (s.ima.get c)).last.toInt) ∧
        (∀ j, j < s.outCount.toNat ∨ s.outCount.toNat + 16 ≤ j → outAt t j = outAt s j) ∧
        t = { afterReads 8 s with ima := t.ima, out := t.out, outCount := s.outCount + 16 }

/-! ### MS-ADPCM -/

/-- R181: the coefficient pair of each predictor. -/
def Obligations.MsCoefficientPairs : Prop :=
  ∀ (v : MsChan) (c1 c2 : Int),
    [(256, 0), (512, -256), (0, 0), (192, 64), (240, 0), (460, -208), (392, -232)][v.pred.toNat]? = some (c1, c2) →
      (selectCoeffs v).coeff1.toInt = c1 ∧ (selectCoeffs v).coeff2.toInt = c2 ∧
      selectCoeffs v = { v with coeff1 := (selectCoeffs v).coeff1, coeff2 := (selectCoeffs v).coeff2 }

/-- Every entry of the MS-ADPCM tables (R42, R43). Those of `MS_ADAPT` are the spec's from general knowledge (log entry
12). -/
def Obligations.MsTableEntries : Prop :=
  msAdaptTable = [230, 230, 230, 230, 307, 409, 512, 614, 768, 614, 512, 409, 307, 230, 230, 230] ∧
  msCoeff1 = [256, 512, 0, 192, 240, 460, 392] ∧ msCoeff2 = [0, -256, 0, 64, 0, -208, -232]

/-- The stereo MSADPCM header (R182 with the offsets of R79, `DOC` order): 14 bytes, four samples, every channel's
`sample2` before every channel's `sample1`. -/
def Obligations.MsadpcmHeaderStereo : Prop :=
  ∀ s : State, OutSpace.wf s.out → s.latched.channels = 2 → s.outCount.toNat + 4 ≤ s.reqN.toNat →
    ∃ t, exec .msadpcmHdr s = .next t ∧
      t.ms.ch0.pred.toNat = min (wireByte s 0).toNat 6 ∧ t.ms.ch1.pred.toNat = min (wireByte s 1).toNat 6 ∧
      t.ms.ch0 = selectCoeffs t.ms.ch0 ∧ t.ms.ch1 = selectCoeffs t.ms.ch1 ∧
      t.ms.ch0.delta.toInt = (wireField s 2).toInt ∧ t.ms.ch1.delta.toInt = (wireField s 4).toInt ∧
      t.ms.ch0.sample2 = wireField s 6 ∧ t.ms.ch1.sample2 = wireField s 8 ∧
      t.ms.ch0.sample1 = wireField s 10 ∧ t.ms.ch1.sample1 = wireField s 12 ∧
      outAt t s.outCount.toNat = wireField s 6 ∧ outAt t (s.outCount.toNat + 1) = wireField s 8 ∧
      outAt t (s.outCount.toNat + 2) = wireField s 10 ∧ outAt t (s.outCount.toNat + 3) = wireField s 12 ∧
      (∀ j, j < s.outCount.toNat ∨ s.outCount.toNat + 4 ≤ j → outAt t j = outAt s j) ∧
      t = { afterReads 14 s with
        ms := t.ms
        out := t.out
        outCount := s.outCount + 4
        blockPos := ⟨14, s.blockPos.ch1⟩ }

/-- The mono MSADPCM header (R182 with the offsets of R79, `DOC` order): 7 bytes, two samples; channel 1 is
untouched. -/
def Obligations.MsadpcmHeaderMono : Prop :=
  ∀ s : State, OutSpace.wf s.out → s.latched.channels = 1 → s.outCount.toNat + 2 ≤ s.reqN.toNat →
    ∃ t, exec .msadpcmHdr s = .next t ∧
      t.ms.ch0.pred.toNat = min (wireByte s 0).toNat 6 ∧ t.ms.ch0 = selectCoeffs t.ms.ch0 ∧
      t.ms.ch0.delta.toInt = (wireField s 1).toInt ∧
      t.ms.ch0.sample2 = wireField s 3 ∧ t.ms.ch0.sample1 = wireField s 5 ∧
      outAt t s.outCount.toNat = wireField s 3 ∧ outAt t (s.outCount.toNat + 1) = wireField s 5 ∧
      (∀ j, j ≠ s.outCount.toNat → j ≠ s.outCount.toNat + 1 → outAt t j = outAt s j) ∧
      t = { afterReads 7 s with
        ms := ⟨t.ms.ch0, s.ms.ch1⟩
        out := t.out
        outCount := s.outCount + 2
        blockPos := ⟨7, s.blockPos.ch1⟩ }

/-- R182's pre-check: where fewer than `2 * CHANNELS` places remain the header faults `OUTPUT_OVERRUN` with nothing
read or written. -/
def Obligations.MsadpcmHeaderOverrun : Prop :=
  ∀ s : State, s.reqN.toNat < s.outCount.toNat + 2 * s.latched.channels.toNat →
    ∃ t, exec .msadpcmHdr s = .next t ∧ FaultTaken 10 s t

/-- R184 under either width of the delta, with the adaptation table of R43 (general knowledge, log entry 12): the
overflow fault with no register written, or the new samples and the new delta of the channel and nothing else. That a
weighted sum outside s32 faults too is the model's inference (log entry 18); R184's list of faults names the other
three, and no coefficient pair of R42 reaches it. -/
def Obligations.DecodeMsResult : Prop :=
  ∀ (c : Chan) (code : Code) (s : State) (adapt : Int), msAdaptTable[code.toNat]? = some adapt →
    let v := s.ms.get c
    let weighted := v.sample1.toInt * v.coeff1.toInt + v.sample2.toInt * v.coeff2.toInt
    let nibble : Int := if 8 ≤ code.toNat then (code.toNat : Int) - 16 else code.toNat
    let p := weighted.tdiv 256 + nibble * v.delta.toInt
    let t := adapt * v.delta.toInt
    let outside := fun x : Int => x < -2 ^ 31 ∨ 2 ^ 31 - 1 < x
    if Config.msDeltaBits = .bits32 ∧ (outside weighted ∨ outside (nibble * v.delta.toInt) ∨ outside p ∨ outside t) then
      ∃ u, exec (.decodeMs c code) s = .next u ∧ FaultTaken 11 s u
    else
      let d := Int.fdiv t 256
      let stored := if Config.msDeltaBits = .bits16 then (BitVec.ofInt 16 d).toInt else d
      ∃ x : MsChan, exec (.decodeMs c code) s = .next { s with ms := s.ms.set c x } ∧
        x.sample1.toInt = max (-32768) (min 32767 p) ∧ x.sample2 = v.sample1 ∧ x.delta.toInt = max 16 stored ∧
        x.pred = v.pred ∧ x.coeff1 = v.coeff1 ∧ x.coeff2 = v.coeff2

/-- For every code and every entry state that does not fault the sample is in [-32768, 32767] and the new delta at
least 16; and a delta of 0 or below becomes 16, with 16 delta bits as long as the shifted product cannot leave s16, that
is from -10922 on (R186, and R184 below that; log entry 14). -/
def Obligations.DecodeMsStaysInRange : Prop :=
  ∀ (c : Chan) (code : Code) (s : State),
    ∃ t, exec (.decodeMs c code) s = .next t ∧
      (FaultTaken 11 s t ∨
        (t.mode = s.mode ∧ -32768 ≤ (t.ms.get c).sample1.toInt ∧ (t.ms.get c).sample1.toInt ≤ 32767 ∧
          16 ≤ (t.ms.get c).delta.toInt ∧
          ((s.ms.get c).delta.toInt ≤ 0 → (Config.msDeltaBits = .bits16 → -10922 ≤ (s.ms.get c).delta.toInt) →
            (t.ms.get c).delta.toInt = 16)))

/-- R185: MSADPCM_BYTE reads one byte, counts it, and writes two samples: the high nibble against channel 0, the low
nibble against channel `CHANNELS - 1`, seeing the first's update in mono. With a 32-bit delta it does so where neither
decode overflows. -/
def Obligations.MsadpcmByteResult : Prop :=
  ∀ s : State, OutSpace.wf s.out → (s.latched.channels = 1 ∨ s.latched.channels = 2) → s.outCount.toNat + 2 ≤ s.reqN.toNat →
    let hi := hiNibble (wireByte s 0)
    let lo := loNibble (wireByte s 0)
    let first := msNext Config.msDeltaBits hi s.ms.ch0
    let entry := if s.latched.channels = 2 then s.ms.ch1 else first
    let second := msNext Config.msDeltaBits lo entry
    (Config.msDeltaBits = .bits32 → msOverflow hi s.ms.ch0 = false ∧ msOverflow lo entry = false) →
      ∃ t, exec .msadpcmByte s = .next t ∧
        t.ms = (if s.latched.channels = 2 then ⟨first, second⟩ else ⟨second, s.ms.ch1⟩) ∧
        outAt t s.outCount.toNat = first.sample1 ∧ outAt t (s.outCount.toNat + 1) = second.sample1 ∧
        (∀ j, j ≠ s.outCount.toNat → j ≠ s.outCount.toNat + 1 → outAt t j = outAt s j) ∧
        t = { afterReads 1 s with
          blockPos := ⟨s.blockPos.ch0 + 1, s.blockPos.ch1⟩
          ms := t.ms
          out := t.out
          outCount := s.outCount + 2 }

/-- Faults of the decodes of a payload byte are precise (R213): the byte is consumed and counted, and nothing after the
fault point happens, so a fault in the first decode leaves every predictor and sample, and one in the second keeps the
first's. In mono the second decode of MSADPCM_BYTE starts from the registers the first left (R185); a second decode of
MSIMA_BYTE, or of IMA_BYTE in mono, never faults, since the first left its index in range (R133). -/
def Obligations.PayloadFaultsArePrecise : Prop :=
  (∀ s : State, stepIndexOk s.ima.ch0 = false →
    (∃ t, exec .imaByte s = .next t ∧ FaultTaken 9 (afterReads 1 s) t) ∧
    ∃ t, exec .msimaByte s = .next t ∧
      FaultTaken 9 { afterReads 1 s with blockPos := ⟨s.blockPos.ch0 + 1, s.blockPos.ch1⟩ } t) ∧
  (∀ s : State, s.latched.channels = 2 → s.outCount.toNat < s.reqN.toNat →
    stepIndexOk s.ima.ch0 = true → stepIndexOk s.ima.ch1 = false →
      let first := imaNext (hiNibble (wireByte s 0)) s.ima.ch0
      ∃ t, exec .imaByte s = .next t ∧
        FaultTaken 9 { afterReads 1 s with
          ima := ⟨first, s.ima.ch1⟩
          out := cellWrite s.out s.outCount.toNat (s16 first.last.toInt) } t) ∧
  (∀ s : State, Config.msDeltaBits = .bits32 → msOverflow (hiNibble (wireByte s 0)) s.ms.ch0 = true →
    ∃ t, exec .msadpcmByte s = .next t ∧
      FaultTaken 11 { afterReads 1 s with blockPos := ⟨s.blockPos.ch0 + 1, s.blockPos.ch1⟩ } t) ∧
  ∀ s : State, Config.msDeltaBits = .bits32 → (s.latched.channels = 1 ∨ s.latched.channels = 2) →
    s.outCount.toNat < s.reqN.toNat →
      let first := msNext .bits32 (hiNibble (wireByte s 0)) s.ms.ch0
      let entry := if s.latched.channels = 2 then s.ms.ch1 else first
      msOverflow (hiNibble (wireByte s 0)) s.ms.ch0 = false → msOverflow (loNibble (wireByte s 0)) entry = true →
        ∃ t, exec .msadpcmByte s = .next t ∧
          FaultTaken 11 { afterReads 1 s with
            blockPos := ⟨s.blockPos.ch0 + 1, s.blockPos.ch1⟩
            ms := ⟨first, s.ms.ch1⟩
            out := cellWrite s.out s.outCount.toNat first.sample1 } t

/-! ### The whole machine -/

/-- The legal-state invariant holds right after reset. Three of its clauses are the model's own: the spaces are in
canonical form, `N` and `s` are 0 outside a READ (log entry 6), a 16-bit delta is held sign-extended (log entry 4). -/
def Obligations.ResetIsLegal : Prop := Legal State.reset

/-- Every step from a legal state leads to a legal state, for every action of the host. The clauses of `ResetIsLegal`
that are the model's own (log entries 4 and 6) are so here. -/
def Obligations.StepKeepsLegal : Prop := ∀ s t : State, Legal s → step s = .next t → Legal t

/-- From a legal state no step faults, and the one refusal is the host's binding of a source while a decoder lives,
which the spec gives the host no step for (R68; a refusal is the model's choice, log entry 11). -/
def Obligations.LegalStatesNeverStop : Prop :=
  ∀ s : State, Legal s →
    (∃ t, step s = .next t) ∨
    (step s = .refused .sourceBoundDuringInstance ∧ s.mode ≠ .busy ∧ hasInstance s = true ∧
      ∃ before rest more, s.host = .bindSource before rest :: more)

/-- Every READ ends (R107, R248): from any legal state of a running READ the core leaves `BUSY` within
`END - pos + 1` steps, for either meaning of exhaustion and every source. R107 marks its bound, in iterations, as the
spec's own inference ("[derived: from rules R105, 20_memory.md rules R53 to R56 and 30_encoding.md rule R82]"); that a
step is one iteration is the model's choice (log entry 1). -/
def Obligations.ReadTerminates : Prop :=
  ∀ s : State, Legal s → s.mode = .busy →
    ∃ k t, k ≤ s.latched.endPos - s.pos + 1 ∧ Host.Core.run Sys2Proof.core k s = .next t ∧ t.mode ≠ .busy

/-- A whole READ of plain IMA with the valid range inside the source (R135, R105, R106): it decodes the bytes from
`pos` on, as many as the request or the range allows, writes exactly their samples in order, and reports their
count. That the READ takes several steps is the model's choice (log entry 1). -/
def Obligations.PlainImaReadDecodesStream : Prop :=
  ∀ s : State, Legal s → s.mode = .busy → s.latched.variant = .ima → s.latched.endPos ≤ s.src.len → s.eosFlag = false →
    let n := min ((s.reqN.toNat - s.outCount.toNat) / 2) (s.latched.endPos - s.pos)
    let bytes := (List.range n).map (wireByte s)
    let decoded := plainIma (decide (s.latched.channels = 2)) bytes s.ima
    ∃ k t, Host.Core.run Sys2Proof.core k s = .next t ∧ t.mode = .ready ∧
      t.result.toNat = s.outCount.toNat + 2 * n ∧ t.pos = s.pos + n ∧ t.ima = decoded.2 ∧
      (∀ i x, decoded.1[i]? = some x → (outAt t (s.outCount.toNat + i)).toInt = x) ∧
      ∀ j, j < s.outCount.toNat ∨ s.outCount.toNat + 2 * n ≤ j → outAt t j = outAt s j

/-- The units of R82: an iteration that does not end the READ and does not fault reads exactly the unit's bytes and
writes exactly its samples. -/
def Obligations.UnitLengths : Prop :=
  ∀ s t : State, Legal s → s.mode = .busy → loopExit s = false → step s = .next t → t.mode = .busy →
    t.pos = (afterReads (unitSize s).1 s).pos ∧ t.eosFlag = (afterReads (unitSize s).1 s).eosFlag ∧
      t.drawIx = (afterReads (unitSize s).1 s).drawIx ∧ t.outCount.toNat = s.outCount.toNat + (unitSize s).2

/-- A running READ writes no output element below `s` or at or past `N`, whatever the state and whether or not it
faults (R60, R216). -/
def Obligations.OutputStaysInsideRequest : Prop :=
  ∀ s t : State, s.mode = .busy → step s = .next t →
    ∀ i, i < s.outCount.toNat ∨ s.reqN.toNat ≤ i → outAt t i = outAt s i

/-- The latched configuration changes only by a CONFIGURE that succeeds, a RELEASE, or hardware reset (R27). -/
def Obligations.ConfigurationOnlyLatched : Prop :=
  ∀ s t : State, step s = .next t → t.latched ≠ s.latched →
    (∃ w rest, s.host = .writeCmd w :: rest ∧ decode (.cmd w) = .instr .configure ∧ s.mode = .unconfigured ∧
      t.mode = .ready) ∨
    (∃ w rest, s.host = .writeCmd w :: rest ∧ decode (.cmd w) = .instr .release ∧ s.mode = .ready ∧
      t.mode = .unconfigured) ∨
    (s.mode ≠ .busy ∧ ∃ rest, s.host = .hardwareReset :: rest)

/-- The core never writes the source bytes, nor does any host step while a decoder lives (R51, R68), and the argument
registers change only by a host write of one or hardware reset (R22). -/
def Obligations.SourceAndArgumentsNotWritten : Prop :=
  ∀ s t : State, step s = .next t →
    (hasInstance s = true ∨ s.mode = .busy → t.src.cells = s.src.cells ∧ t.src.len = s.src.len) ∧
    (t.args ≠ s.args → s.mode ≠ .busy ∧
      ((∃ r v rest, s.host = .writeArg r v :: rest) ∨ ∃ rest, s.host = .hardwareReset :: rest))

/-- R24: `RESULT` is written only by a command that completes, or by hardware reset; a step that ends in `FAULTED`
keeps it. -/
def Obligations.ResultOnlyOnCompletion : Prop :=
  ∀ s t : State, step s = .next t →
    (t.mode = .faulted → t.result = s.result) ∧
    (t.result ≠ s.result → (t.mode = .ready ∨ t.mode = .unconfigured) ∧
      (s.mode = .busy ∨ ∃ a rest, s.host = a :: rest ∧ (a = .hardwareReset ∨ ∃ w, a = .writeCmd w)))

/-- The IMA registers and the MS-ADPCM registers are separate storage (R20, R38): no IMA-family operation writes an
MS-ADPCM register, no MSADPCM operation an IMA register, whether it completes or faults. -/
def Obligations.FamiliesAreSeparate : Prop :=
  ∀ s t : State,
    (∀ i, (i ∈ [Instr.imaByte, .msimaHdr, .msimaByte, .msimaGroup] ∨ ∃ code c, i = .decodeIma code c) →
      exec i s = .next t → t.ms = s.ms) ∧
    (∀ i, (i ∈ [Instr.msadpcmHdr, .msadpcmByte] ∨ ∃ c code, i = .decodeMs c code) →
      exec i s = .next t → t.ima = s.ima) ∧
    (∀ i, i ∈ [Instr.msimaHdr, .msimaByte] → exec i s = .next t → t.ima.ch1 = s.ima.ch1)

/-- What no micro-operation or primitive writes, whether it completes or faults: `CMD`, `RESULT`, the argument and
configuration registers, `blockPos[1]`, the source, the history, the host's list; the unblocked variants write no
`blockPos` (R30, R38). The mode changes only by a fault. -/
def Obligations.MicroOperationFrame : Prop :=
  ∀ (i : Instr) (s t : State),
    i ∉ [Instr.configure, .read, .rewind, .queryEod, .queryStereo, .queryRate, .release] → exec i s = .next t →
      t.cmd = s.cmd ∧ t.result = s.result ∧ t.args = s.args ∧ t.latched = s.latched ∧
      t.blockPos.ch1 = s.blockPos.ch1 ∧ t.src = s.src ∧ t.events = s.events ∧ t.host = s.host ∧
      (t.mode = .faulted ∨ (t.mode = s.mode ∧ t.faultCode = s.faultCode ∧ t.reqN = s.reqN)) ∧
      (i ∈ [Instr.imaByte, .msimaGroup] → t.blockPos = s.blockPos) ∧
      ((∃ code c, i = .decodeIma code c) ∨ (∃ c code, i = .decodeMs c code) →
        t.blockPos = s.blockPos ∧ t.pos = s.pos ∧ t.eosFlag = s.eosFlag ∧ t.out = s.out)

/-- `CMD`, `RESULT` and the history influence nothing: two states that differ only there behave the same over any
number of steps. With `RewindEqualsFreshConfigure` this is R109's second half. -/
def Obligations.ReportsInfluenceNothing : Prop :=
  ∀ (k : Nat) (s t : State), SameButReports s t →
    SameOutcome (Host.Core.run Sys2Proof.core k s) (Host.Core.run Sys2Proof.core k t)
end

