-- ==== Sys2Proof/Laws/Arith.lean ====
section
/-! SUPPORT. Arithmetic: the clamp, the division toward zero, storing into a register, the per-channel arrays. -/

namespace Sys2Proof.Machine

theorem clamp_eq (v lo hi : Int) (h : lo ≤ hi) : clamp v lo hi = max lo (min hi v) := by
  unfold clamp
  split
  · omega
  · split <;> omega

theorem clamp_bounds (v lo hi : Int) (h : lo ≤ hi) : lo ≤ clamp v lo hi ∧ clamp v lo hi ≤ hi := by
  rw [clamp_eq v lo hi h]
  omega

theorem tdiv256_eq (a : Int) : tdiv256 a = a.tdiv 256 := by
  unfold tdiv256
  split
  · rename_i h
    rw [Int.tdiv_eq_ediv_of_nonneg h]
  · rename_i h
    rw [← Int.tdiv_eq_ediv_of_nonneg (by omega), Int.neg_tdiv, Int.neg_neg]

theorem sar8_eq (a : Int) : sar8 a = Int.fdiv a 256 := by
  rw [sar8, Int.fdiv_eq_ediv_of_nonneg a (by decide)]

/-- A value inside s32 is stored as itself. -/
theorem s32_toInt {v : Int} (h1 : -2147483648 ≤ v) (h2 : v ≤ 2147483647) : (s32 v).toInt = v := by
  rw [s32, BitVec.toInt_ofInt]
  exact Int.bmod_eq_of_le (by omega) (by omega)

/-- A value inside s16 is stored as itself. -/
theorem s16_toInt {v : Int} (h1 : -32768 ≤ v) (h2 : v ≤ 32767) : (s16 v).toInt = v := by
  rw [s16, BitVec.toInt_ofInt]
  exact Int.bmod_eq_of_le (by omega) (by omega)

theorem toInt16_bounds (x : Sample) : -32768 ≤ x.toInt ∧ x.toInt ≤ 32767 := by
  have h1 := BitVec.le_toInt x
  have h2 := BitVec.toInt_lt (x := x)
  omega

theorem toInt32_bounds (x : U32) : -2147483648 ≤ x.toInt ∧ x.toInt ≤ 2147483647 := by
  have h1 := BitVec.le_toInt x
  have h2 := BitVec.toInt_lt (x := x)
  omega

theorem wrap16_bounds (v : Int) : -32768 ≤ wrap16 v ∧ wrap16 v ≤ 32767 := toInt16_bounds _

theorem wrap16_eq {v : Int} (h1 : -32768 ≤ v) (h2 : v ≤ 32767) : wrap16 v = v := s16_toInt h1 h2

/-- Sign extension keeps the value (R57, R151, R182). -/
theorem signExtend_toInt (x : Sample) : (x.signExtend 32).toInt = x.toInt :=
  BitVec.toInt_signExtend_of_le (by decide)

@[simp] theorem get_c0 {α : Type} (p : PerChan α) : p.get .c0 = p.ch0 := rfl

@[simp] theorem get_c1 {α : Type} (p : PerChan α) : p.get .c1 = p.ch1 := rfl

@[simp] theorem set_c0 {α : Type} (p : PerChan α) (v : α) : p.set .c0 v = ⟨v, p.ch1⟩ := rfl

@[simp] theorem set_c1 {α : Type} (p : PerChan α) (v : α) : p.set .c1 v = ⟨p.ch0, v⟩ := rfl

@[simp] theorem get_set_same {α : Type} (p : PerChan α) (c : Chan) (v : α) : (p.set c v).get c = v := by
  cases c <;> rfl

@[simp] theorem set_get {α : Type} (p : PerChan α) (c : Chan) : p.set c (p.get c) = p := by
  cases c <;> rfl

@[simp] theorem set_set {α : Type} (p : PerChan α) (c : Chan) (v w : α) : (p.set c v).set c w = p.set c w := by
  cases c <;> rfl

theorem get_set_other {α : Type} (p : PerChan α) {c d : Chan} (h : d ≠ c) (v : α) :
    (p.set c v).get d = p.get d := by
  cases c <;> cases d <;> first | rfl | exact absurd rfl h

end Sys2Proof.Machine
end

