-- ==== Sys2Proof/Laws/Memory.lean ====
section
/-! SUPPORT. Reading and writing cells, and that every operation keeps the canonical form. -/

namespace Sys2Proof.Machine

variable {w : Nat}

theorem cellsWf_nil : cellsWf ([] : List (Nat × BitVec w)) :=
  ⟨List.Pairwise.nil, fun _ h => absurd h List.not_mem_nil⟩

theorem cellsWf_cons {a : Nat} {v : BitVec w} {m : List (Nat × BitVec w)} :
    cellsWf ((a, v) :: m) ↔ v ≠ unlisted ∧ (∀ x ∈ m, a < x.1) ∧ cellsWf m := by
  simp only [cellsWf, List.pairwise_cons, List.forall_mem_cons]
  tauto

/-- An address below every listed one is unlisted. -/
theorem cellRead_of_lt {m : List (Nat × BitVec w)} {k : Nat} (h : ∀ x ∈ m, k < x.1) :
    cellRead m k = unlisted := by
  induction m with
  | nil => rfl
  | cons x m ih =>
    obtain ⟨a, v⟩ := x
    have ha : k < a := h (a, v) (by simp)
    simp only [cellRead, if_neg (Nat.ne_of_gt ha)]
    exact ih fun x hx => h x (by simp [hx])

theorem cellRead_cellWrite_same {m : List (Nat × BitVec w)} (h : cellsWf m) (k : Nat) (v : BitVec w) :
    cellRead (cellWrite m k v) k = v := by
  induction m with
  | nil => by_cases hv : v = unlisted <;> simp [cellWrite, cellRead, hv]
  | cons x m ih =>
    obtain ⟨a, u⟩ := x
    obtain ⟨-, hlt, hm⟩ := cellsWf_cons.1 h
    simp only [cellWrite]
    split
    · rename_i hk
      split
      · rename_i hv
        rw [hv]
        exact cellRead_of_lt (List.forall_mem_cons.2 ⟨hk, fun x hx => Nat.lt_trans hk (hlt x hx)⟩)
      · simp [cellRead]
    · split
      · rename_i hk
        subst hk
        split
        · rename_i hv
          rw [hv, cellRead_of_lt hlt]
        · simp [cellRead]
      · rename_i h1 h2
        simp only [cellRead, if_neg (Ne.symm h2)]
        exact ih hm

theorem cellRead_cellWrite_other {m : List (Nat × BitVec w)} {j k : Nat} (hjk : j ≠ k) (v : BitVec w) :
    cellRead (cellWrite m k v) j = cellRead m j := by
  induction m with
  | nil => by_cases hv : v = unlisted <;> simp [cellWrite, cellRead, hv, Ne.symm hjk]
  | cons x m ih =>
    obtain ⟨a, u⟩ := x
    simp only [cellWrite]
    split
    · split <;> simp [cellRead, Ne.symm hjk]
    · split
      · rename_i hk
        subst hk
        split <;> simp [cellRead, Ne.symm hjk]
      · simp [cellRead, ih]

/-- Every address listed after a write was listed before, or is the one written. -/
theorem mem_cellWrite {m : List (Nat × BitVec w)} {k : Nat} {v : BitVec w} {x : Nat × BitVec w}
    (hx : x ∈ cellWrite m k v) : x.1 = k ∨ x ∈ m := by
  induction m with
  | nil =>
    by_cases hv : v = unlisted <;> simp_all [cellWrite]
  | cons y m ih =>
    obtain ⟨a, u⟩ := y
    simp only [cellWrite] at hx
    split at hx
    · split at hx
      · exact .inr hx
      · rcases List.mem_cons.1 hx with rfl | hx
        · exact .inl rfl
        · exact .inr hx
    · split at hx
      · split at hx
        · exact .inr (List.mem_cons_of_mem _ hx)
        · rcases List.mem_cons.1 hx with rfl | hx
          · exact .inl rfl
          · exact .inr (List.mem_cons_of_mem _ hx)
      · rcases List.mem_cons.1 hx with rfl | hx
        · exact .inr (by simp)
        · exact (ih hx).imp id (List.mem_cons_of_mem _)

theorem cellsWf_cellWrite {m : List (Nat × BitVec w)} (h : cellsWf m) (k : Nat) (v : BitVec w) :
    cellsWf (cellWrite m k v) := by
  induction m with
  | nil =>
    by_cases hv : v = unlisted
    · simpa [cellWrite, hv] using h
    · simpa [cellWrite, hv] using cellsWf_cons.2 ⟨hv, by simp, h⟩
  | cons x m ih =>
    obtain ⟨a, u⟩ := x
    obtain ⟨hu, hlt, hm⟩ := cellsWf_cons.1 h
    simp only [cellWrite]
    split
    · rename_i hk
      split
      · exact h
      · rename_i hv
        exact cellsWf_cons.2
          ⟨hv, List.forall_mem_cons.2 ⟨hk, fun x hx => Nat.lt_trans hk (hlt x hx)⟩, h⟩
    · split
      · rename_i hk
        subst hk
        split
        · exact hm
        · rename_i hv
          exact cellsWf_cons.2 ⟨hv, hlt, hm⟩
      · rename_i h1 h2
        refine cellsWf_cons.2 ⟨hu, fun x hx => ?_, ih hm⟩
        rcases mem_cellWrite hx with hx | hx
        · omega
        · exact hlt x hx

theorem mem_cellsFrom {k : Nat} {vs : List (BitVec w)} {x : Nat × BitVec w} (hx : x ∈ cellsFrom k vs) :
    k ≤ x.1 ∧ x.1 < k + vs.length := by
  induction vs generalizing k with
  | nil => simp [cellsFrom] at hx
  | cons v vs ih =>
    simp only [cellsFrom] at hx
    split at hx
    · have := ih hx
      simp only [List.length_cons]
      omega
    · rcases List.mem_cons.1 hx with rfl | hx
      · simp
      · have := ih hx
        simp only [List.length_cons]
        omega

theorem cellsWf_cellsFrom (k : Nat) (vs : List (BitVec w)) : cellsWf (cellsFrom k vs) := by
  induction vs generalizing k with
  | nil => exact cellsWf_nil
  | cons v vs ih =>
    simp only [cellsFrom]
    split
    · exact ih _
    · rename_i hv
      exact cellsWf_cons.2 ⟨hv, fun x hx => (mem_cellsFrom hx).1, ih _⟩

/-- The bound bytes read back: address `k + i` holds the i-th value. -/
theorem cellRead_cellsFrom (k i : Nat) (vs : List (BitVec w)) :
    cellRead (cellsFrom k vs) (k + i) = vs.getD i unlisted := by
  induction vs generalizing k i with
  | nil => simp [cellsFrom, cellRead]
  | cons v vs ih =>
    cases i with
    | zero =>
      simp only [cellsFrom, Nat.add_zero, List.getD_cons_zero]
      split
      · rename_i hv
        rw [hv]
        exact cellRead_of_lt fun x hx => (mem_cellsFrom hx).1
      · simp [cellRead]
    | succ i =>
      have h := ih (k + 1) i
      rw [show k + 1 + i = k + (i + 1) by omega] at h
      simp only [cellsFrom, List.getD_cons_succ]
      split
      · exact h
      · rw [cellRead, if_neg (by omega)]
        exact h

/-- Right after reset both spaces are in canonical form. -/
theorem reset_memory_wf : Memory.wf State.reset.src.cells ∧ OutSpace.wf State.reset.out := ⟨cellsWf_nil, cellsWf_nil⟩

end Sys2Proof.Machine
end

