-- ==== Sys2Proof/Laws/State.lean ====
section
/-! SUPPORT. The fields of a state after each named update: what it writes, and every other field kept. -/

namespace Sys2Proof.Machine

/-- Two states are equal field by field. After it the fields of a chain of updates close by `simp`, where `rfl` on the
whole record may compare unlike states. -/
@[ext] theorem state_ext {s t : State}
    (mode : s.mode = t.mode) (faultCode : s.faultCode = t.faultCode) (cmd : s.cmd = t.cmd)
    (result : s.result = t.result) (args : s.args = t.args) (latched : s.latched = t.latched)
    (pos : s.pos = t.pos) (eosFlag : s.eosFlag = t.eosFlag) (blockPos : s.blockPos = t.blockPos)
    (ima : s.ima = t.ima) (ms : s.ms = t.ms) (reqN : s.reqN = t.reqN) (outCount : s.outCount = t.outCount)
    (src : s.src = t.src) (out : s.out = t.out) (events : s.events = t.events) (host : s.host = t.host)
    (drawIx : s.drawIx = t.drawIx) : s = t := by
  cases s
  cases t
  simp only at *
  subst_vars
  rfl

variable (s : State)

/-! `raise` -/

@[simp] theorem raise_mode (code : FaultCode) : (raise code s).mode = .faulted := rfl
@[simp] theorem raise_faultCode (code : FaultCode) : (raise code s).faultCode = faultNum code := rfl
@[simp] theorem raise_cmd (code : FaultCode) : (raise code s).cmd = s.cmd := rfl
@[simp] theorem raise_result (code : FaultCode) : (raise code s).result = s.result := rfl
@[simp] theorem raise_args (code : FaultCode) : (raise code s).args = s.args := rfl
@[simp] theorem raise_latched (code : FaultCode) : (raise code s).latched = s.latched := rfl
@[simp] theorem raise_pos (code : FaultCode) : (raise code s).pos = s.pos := rfl
@[simp] theorem raise_eosFlag (code : FaultCode) : (raise code s).eosFlag = s.eosFlag := rfl
@[simp] theorem raise_blockPos (code : FaultCode) : (raise code s).blockPos = s.blockPos := rfl
@[simp] theorem raise_ima (code : FaultCode) : (raise code s).ima = s.ima := rfl
@[simp] theorem raise_ms (code : FaultCode) : (raise code s).ms = s.ms := rfl
@[simp] theorem raise_reqN (code : FaultCode) : (raise code s).reqN = 0 := rfl
@[simp] theorem raise_outCount (code : FaultCode) : (raise code s).outCount = 0 := rfl
@[simp] theorem raise_src (code : FaultCode) : (raise code s).src = s.src := rfl
@[simp] theorem raise_out (code : FaultCode) : (raise code s).out = s.out := rfl
@[simp] theorem raise_events (code : FaultCode) : (raise code s).events = s.events := rfl
@[simp] theorem raise_host (code : FaultCode) : (raise code s).host = s.host := rfl
@[simp] theorem raise_drawIx (code : FaultCode) : (raise code s).drawIx = s.drawIx := rfl

/-! `setIma` -/

@[simp] theorem setIma_mode (c : Chan) (v : ImaChan) : (setIma c v s).mode = s.mode := rfl
@[simp] theorem setIma_faultCode (c : Chan) (v : ImaChan) : (setIma c v s).faultCode = s.faultCode := rfl
@[simp] theorem setIma_cmd (c : Chan) (v : ImaChan) : (setIma c v s).cmd = s.cmd := rfl
@[simp] theorem setIma_result (c : Chan) (v : ImaChan) : (setIma c v s).result = s.result := rfl
@[simp] theorem setIma_args (c : Chan) (v : ImaChan) : (setIma c v s).args = s.args := rfl
@[simp] theorem setIma_latched (c : Chan) (v : ImaChan) : (setIma c v s).latched = s.latched := rfl
@[simp] theorem setIma_pos (c : Chan) (v : ImaChan) : (setIma c v s).pos = s.pos := rfl
@[simp] theorem setIma_eosFlag (c : Chan) (v : ImaChan) : (setIma c v s).eosFlag = s.eosFlag := rfl
@[simp] theorem setIma_blockPos (c : Chan) (v : ImaChan) : (setIma c v s).blockPos = s.blockPos := rfl
@[simp] theorem setIma_ima (c : Chan) (v : ImaChan) : (setIma c v s).ima = s.ima.set c v := rfl
@[simp] theorem setIma_ms (c : Chan) (v : ImaChan) : (setIma c v s).ms = s.ms := rfl
@[simp] theorem setIma_reqN (c : Chan) (v : ImaChan) : (setIma c v s).reqN = s.reqN := rfl
@[simp] theorem setIma_outCount (c : Chan) (v : ImaChan) : (setIma c v s).outCount = s.outCount := rfl
@[simp] theorem setIma_src (c : Chan) (v : ImaChan) : (setIma c v s).src = s.src := rfl
@[simp] theorem setIma_out (c : Chan) (v : ImaChan) : (setIma c v s).out = s.out := rfl
@[simp] theorem setIma_events (c : Chan) (v : ImaChan) : (setIma c v s).events = s.events := rfl
@[simp] theorem setIma_host (c : Chan) (v : ImaChan) : (setIma c v s).host = s.host := rfl
@[simp] theorem setIma_drawIx (c : Chan) (v : ImaChan) : (setIma c v s).drawIx = s.drawIx := rfl

/-! `setMs` -/

@[simp] theorem setMs_mode (c : Chan) (v : MsChan) : (setMs c v s).mode = s.mode := rfl
@[simp] theorem setMs_faultCode (c : Chan) (v : MsChan) : (setMs c v s).faultCode = s.faultCode := rfl
@[simp] theorem setMs_cmd (c : Chan) (v : MsChan) : (setMs c v s).cmd = s.cmd := rfl
@[simp] theorem setMs_result (c : Chan) (v : MsChan) : (setMs c v s).result = s.result := rfl
@[simp] theorem setMs_args (c : Chan) (v : MsChan) : (setMs c v s).args = s.args := rfl
@[simp] theorem setMs_latched (c : Chan) (v : MsChan) : (setMs c v s).latched = s.latched := rfl
@[simp] theorem setMs_pos (c : Chan) (v : MsChan) : (setMs c v s).pos = s.pos := rfl
@[simp] theorem setMs_eosFlag (c : Chan) (v : MsChan) : (setMs c v s).eosFlag = s.eosFlag := rfl
@[simp] theorem setMs_blockPos (c : Chan) (v : MsChan) : (setMs c v s).blockPos = s.blockPos := rfl
@[simp] theorem setMs_ima (c : Chan) (v : MsChan) : (setMs c v s).ima = s.ima := rfl
@[simp] theorem setMs_ms (c : Chan) (v : MsChan) : (setMs c v s).ms = s.ms.set c v := rfl
@[simp] theorem setMs_reqN (c : Chan) (v : MsChan) : (setMs c v s).reqN = s.reqN := rfl
@[simp] theorem setMs_outCount (c : Chan) (v : MsChan) : (setMs c v s).outCount = s.outCount := rfl
@[simp] theorem setMs_src (c : Chan) (v : MsChan) : (setMs c v s).src = s.src := rfl
@[simp] theorem setMs_out (c : Chan) (v : MsChan) : (setMs c v s).out = s.out := rfl
@[simp] theorem setMs_events (c : Chan) (v : MsChan) : (setMs c v s).events = s.events := rfl
@[simp] theorem setMs_host (c : Chan) (v : MsChan) : (setMs c v s).host = s.host := rfl
@[simp] theorem setMs_drawIx (c : Chan) (v : MsChan) : (setMs c v s).drawIx = s.drawIx := rfl

/-! `setBlockPos` -/

@[simp] theorem setBlockPos_mode (v : U32) : (setBlockPos v s).mode = s.mode := rfl
@[simp] theorem setBlockPos_faultCode (v : U32) : (setBlockPos v s).faultCode = s.faultCode := rfl
@[simp] theorem setBlockPos_cmd (v : U32) : (setBlockPos v s).cmd = s.cmd := rfl
@[simp] theorem setBlockPos_result (v : U32) : (setBlockPos v s).result = s.result := rfl
@[simp] theorem setBlockPos_args (v : U32) : (setBlockPos v s).args = s.args := rfl
@[simp] theorem setBlockPos_latched (v : U32) : (setBlockPos v s).latched = s.latched := rfl
@[simp] theorem setBlockPos_pos (v : U32) : (setBlockPos v s).pos = s.pos := rfl
@[simp] theorem setBlockPos_eosFlag (v : U32) : (setBlockPos v s).eosFlag = s.eosFlag := rfl
@[simp] theorem setBlockPos_blockPos (v : U32) : (setBlockPos v s).blockPos = ⟨v, s.blockPos.ch1⟩ := rfl
@[simp] theorem setBlockPos_ima (v : U32) : (setBlockPos v s).ima = s.ima := rfl
@[simp] theorem setBlockPos_ms (v : U32) : (setBlockPos v s).ms = s.ms := rfl
@[simp] theorem setBlockPos_reqN (v : U32) : (setBlockPos v s).reqN = s.reqN := rfl
@[simp] theorem setBlockPos_outCount (v : U32) : (setBlockPos v s).outCount = s.outCount := rfl
@[simp] theorem setBlockPos_src (v : U32) : (setBlockPos v s).src = s.src := rfl
@[simp] theorem setBlockPos_out (v : U32) : (setBlockPos v s).out = s.out := rfl
@[simp] theorem setBlockPos_events (v : U32) : (setBlockPos v s).events = s.events := rfl
@[simp] theorem setBlockPos_host (v : U32) : (setBlockPos v s).host = s.host := rfl
@[simp] theorem setBlockPos_drawIx (v : U32) : (setBlockPos v s).drawIx = s.drawIx := rfl

/-! `addCount` -/

@[simp] theorem addCount_mode (k : U32) : (addCount k s).mode = s.mode := rfl
@[simp] theorem addCount_faultCode (k : U32) : (addCount k s).faultCode = s.faultCode := rfl
@[simp] theorem addCount_cmd (k : U32) : (addCount k s).cmd = s.cmd := rfl
@[simp] theorem addCount_result (k : U32) : (addCount k s).result = s.result := rfl
@[simp] theorem addCount_args (k : U32) : (addCount k s).args = s.args := rfl
@[simp] theorem addCount_latched (k : U32) : (addCount k s).latched = s.latched := rfl
@[simp] theorem addCount_pos (k : U32) : (addCount k s).pos = s.pos := rfl
@[simp] theorem addCount_eosFlag (k : U32) : (addCount k s).eosFlag = s.eosFlag := rfl
@[simp] theorem addCount_blockPos (k : U32) : (addCount k s).blockPos = s.blockPos := rfl
@[simp] theorem addCount_ima (k : U32) : (addCount k s).ima = s.ima := rfl
@[simp] theorem addCount_ms (k : U32) : (addCount k s).ms = s.ms := rfl
@[simp] theorem addCount_reqN (k : U32) : (addCount k s).reqN = s.reqN := rfl
@[simp] theorem addCount_outCount (k : U32) : (addCount k s).outCount = s.outCount + k := rfl
@[simp] theorem addCount_src (k : U32) : (addCount k s).src = s.src := rfl
@[simp] theorem addCount_out (k : U32) : (addCount k s).out = s.out := rfl
@[simp] theorem addCount_events (k : U32) : (addCount k s).events = s.events := rfl
@[simp] theorem addCount_host (k : U32) : (addCount k s).host = s.host := rfl
@[simp] theorem addCount_drawIx (k : U32) : (addCount k s).drawIx = s.drawIx := rfl

/-! `setResult` -/

@[simp] theorem setResult_mode (v : U32) : (setResult v s).mode = s.mode := rfl
@[simp] theorem setResult_faultCode (v : U32) : (setResult v s).faultCode = s.faultCode := rfl
@[simp] theorem setResult_cmd (v : U32) : (setResult v s).cmd = s.cmd := rfl
@[simp] theorem setResult_result (v : U32) : (setResult v s).result = v := rfl
@[simp] theorem setResult_args (v : U32) : (setResult v s).args = s.args := rfl
@[simp] theorem setResult_latched (v : U32) : (setResult v s).latched = s.latched := rfl
@[simp] theorem setResult_pos (v : U32) : (setResult v s).pos = s.pos := rfl
@[simp] theorem setResult_eosFlag (v : U32) : (setResult v s).eosFlag = s.eosFlag := rfl
@[simp] theorem setResult_blockPos (v : U32) : (setResult v s).blockPos = s.blockPos := rfl
@[simp] theorem setResult_ima (v : U32) : (setResult v s).ima = s.ima := rfl
@[simp] theorem setResult_ms (v : U32) : (setResult v s).ms = s.ms := rfl
@[simp] theorem setResult_reqN (v : U32) : (setResult v s).reqN = s.reqN := rfl
@[simp] theorem setResult_outCount (v : U32) : (setResult v s).outCount = s.outCount := rfl
@[simp] theorem setResult_src (v : U32) : (setResult v s).src = s.src := rfl
@[simp] theorem setResult_out (v : U32) : (setResult v s).out = s.out := rfl
@[simp] theorem setResult_events (v : U32) : (setResult v s).events = s.events := rfl
@[simp] theorem setResult_host (v : U32) : (setResult v s).host = s.host := rfl
@[simp] theorem setResult_drawIx (v : U32) : (setResult v s).drawIx = s.drawIx := rfl

/-! `setOut` -/

@[simp] theorem setOut_mode (i : Nat) (v : Sample) : (setOut i v s).mode = s.mode := rfl
@[simp] theorem setOut_faultCode (i : Nat) (v : Sample) : (setOut i v s).faultCode = s.faultCode := rfl
@[simp] theorem setOut_cmd (i : Nat) (v : Sample) : (setOut i v s).cmd = s.cmd := rfl
@[simp] theorem setOut_result (i : Nat) (v : Sample) : (setOut i v s).result = s.result := rfl
@[simp] theorem setOut_args (i : Nat) (v : Sample) : (setOut i v s).args = s.args := rfl
@[simp] theorem setOut_latched (i : Nat) (v : Sample) : (setOut i v s).latched = s.latched := rfl
@[simp] theorem setOut_pos (i : Nat) (v : Sample) : (setOut i v s).pos = s.pos := rfl
@[simp] theorem setOut_eosFlag (i : Nat) (v : Sample) : (setOut i v s).eosFlag = s.eosFlag := rfl
@[simp] theorem setOut_blockPos (i : Nat) (v : Sample) : (setOut i v s).blockPos = s.blockPos := rfl
@[simp] theorem setOut_ima (i : Nat) (v : Sample) : (setOut i v s).ima = s.ima := rfl
@[simp] theorem setOut_ms (i : Nat) (v : Sample) : (setOut i v s).ms = s.ms := rfl
@[simp] theorem setOut_reqN (i : Nat) (v : Sample) : (setOut i v s).reqN = s.reqN := rfl
@[simp] theorem setOut_outCount (i : Nat) (v : Sample) : (setOut i v s).outCount = s.outCount := rfl
@[simp] theorem setOut_src (i : Nat) (v : Sample) : (setOut i v s).src = s.src := rfl
@[simp] theorem setOut_out (i : Nat) (v : Sample) : (setOut i v s).out = cellWrite s.out i v := rfl
@[simp] theorem setOut_events (i : Nat) (v : Sample) : (setOut i v s).events = s.events := rfl
@[simp] theorem setOut_host (i : Nat) (v : Sample) : (setOut i v s).host = s.host := rfl
@[simp] theorem setOut_drawIx (i : Nat) (v : Sample) : (setOut i v s).drawIx = s.drawIx := rfl

/-! `bindOut` -/

@[simp] theorem bindOut_mode (vs : List Sample) : (bindOut vs s).mode = s.mode := rfl
@[simp] theorem bindOut_faultCode (vs : List Sample) : (bindOut vs s).faultCode = s.faultCode := rfl
@[simp] theorem bindOut_cmd (vs : List Sample) : (bindOut vs s).cmd = s.cmd := rfl
@[simp] theorem bindOut_result (vs : List Sample) : (bindOut vs s).result = s.result := rfl
@[simp] theorem bindOut_args (vs : List Sample) : (bindOut vs s).args = s.args := rfl
@[simp] theorem bindOut_latched (vs : List Sample) : (bindOut vs s).latched = s.latched := rfl
@[simp] theorem bindOut_pos (vs : List Sample) : (bindOut vs s).pos = s.pos := rfl
@[simp] theorem bindOut_eosFlag (vs : List Sample) : (bindOut vs s).eosFlag = s.eosFlag := rfl
@[simp] theorem bindOut_blockPos (vs : List Sample) : (bindOut vs s).blockPos = s.blockPos := rfl
@[simp] theorem bindOut_ima (vs : List Sample) : (bindOut vs s).ima = s.ima := rfl
@[simp] theorem bindOut_ms (vs : List Sample) : (bindOut vs s).ms = s.ms := rfl
@[simp] theorem bindOut_reqN (vs : List Sample) : (bindOut vs s).reqN = s.reqN := rfl
@[simp] theorem bindOut_outCount (vs : List Sample) : (bindOut vs s).outCount = s.outCount := rfl
@[simp] theorem bindOut_src (vs : List Sample) : (bindOut vs s).src = s.src := rfl
@[simp] theorem bindOut_out (vs : List Sample) : (bindOut vs s).out = cellsFrom 0 vs := rfl
@[simp] theorem bindOut_events (vs : List Sample) : (bindOut vs s).events = s.events := rfl
@[simp] theorem bindOut_host (vs : List Sample) : (bindOut vs s).host = s.host := rfl
@[simp] theorem bindOut_drawIx (vs : List Sample) : (bindOut vs s).drawIx = s.drawIx := rfl

/-! `setArg` -/

@[simp] theorem setArg_mode (r : ArgReg) (v : U32) : (setArg r v s).mode = s.mode := rfl
@[simp] theorem setArg_faultCode (r : ArgReg) (v : U32) : (setArg r v s).faultCode = s.faultCode := rfl
@[simp] theorem setArg_cmd (r : ArgReg) (v : U32) : (setArg r v s).cmd = s.cmd := rfl
@[simp] theorem setArg_result (r : ArgReg) (v : U32) : (setArg r v s).result = s.result := rfl
@[simp] theorem setArg_latched (r : ArgReg) (v : U32) : (setArg r v s).latched = s.latched := rfl
@[simp] theorem setArg_pos (r : ArgReg) (v : U32) : (setArg r v s).pos = s.pos := rfl
@[simp] theorem setArg_eosFlag (r : ArgReg) (v : U32) : (setArg r v s).eosFlag = s.eosFlag := rfl
@[simp] theorem setArg_blockPos (r : ArgReg) (v : U32) : (setArg r v s).blockPos = s.blockPos := rfl
@[simp] theorem setArg_ima (r : ArgReg) (v : U32) : (setArg r v s).ima = s.ima := rfl
@[simp] theorem setArg_ms (r : ArgReg) (v : U32) : (setArg r v s).ms = s.ms := rfl
@[simp] theorem setArg_reqN (r : ArgReg) (v : U32) : (setArg r v s).reqN = s.reqN := rfl
@[simp] theorem setArg_outCount (r : ArgReg) (v : U32) : (setArg r v s).outCount = s.outCount := rfl
@[simp] theorem setArg_src (r : ArgReg) (v : U32) : (setArg r v s).src = s.src := rfl
@[simp] theorem setArg_out (r : ArgReg) (v : U32) : (setArg r v s).out = s.out := rfl
@[simp] theorem setArg_events (r : ArgReg) (v : U32) : (setArg r v s).events = s.events := rfl
@[simp] theorem setArg_host (r : ArgReg) (v : U32) : (setArg r v s).host = s.host := rfl
@[simp] theorem setArg_drawIx (r : ArgReg) (v : U32) : (setArg r v s).drawIx = s.drawIx := rfl

/-! `initDerived` -/

@[simp] theorem initDerived_mode : (initDerived s).mode = s.mode := rfl
@[simp] theorem initDerived_faultCode : (initDerived s).faultCode = s.faultCode := rfl
@[simp] theorem initDerived_cmd : (initDerived s).cmd = s.cmd := rfl
@[simp] theorem initDerived_result : (initDerived s).result = s.result := rfl
@[simp] theorem initDerived_args : (initDerived s).args = s.args := rfl
@[simp] theorem initDerived_latched : (initDerived s).latched = s.latched := rfl
@[simp] theorem initDerived_pos : (initDerived s).pos = s.latched.startPos := rfl
@[simp] theorem initDerived_eosFlag : (initDerived s).eosFlag = false := rfl
@[simp] theorem initDerived_blockPos : (initDerived s).blockPos = ⟨s.latched.blockAlign, s.latched.blockAlign⟩ := rfl
@[simp] theorem initDerived_ima : (initDerived s).ima = ⟨ImaChan.zero, ImaChan.zero⟩ := rfl
@[simp] theorem initDerived_ms : (initDerived s).ms = ⟨MsChan.zero, MsChan.zero⟩ := rfl
@[simp] theorem initDerived_reqN : (initDerived s).reqN = s.reqN := rfl
@[simp] theorem initDerived_outCount : (initDerived s).outCount = s.outCount := rfl
@[simp] theorem initDerived_src : (initDerived s).src = s.src := rfl
@[simp] theorem initDerived_out : (initDerived s).out = s.out := rfl
@[simp] theorem initDerived_events : (initDerived s).events = s.events := rfl
@[simp] theorem initDerived_host : (initDerived s).host = s.host := rfl
@[simp] theorem initDerived_drawIx : (initDerived s).drawIx = s.drawIx := rfl

/-! `finishRead` -/

@[simp] theorem finishRead_mode : (finishRead s).mode = .ready := rfl
@[simp] theorem finishRead_faultCode : (finishRead s).faultCode = s.faultCode := rfl
@[simp] theorem finishRead_cmd : (finishRead s).cmd = s.cmd := rfl
@[simp] theorem finishRead_result : (finishRead s).result = s.outCount := rfl
@[simp] theorem finishRead_args : (finishRead s).args = s.args := rfl
@[simp] theorem finishRead_latched : (finishRead s).latched = s.latched := rfl
@[simp] theorem finishRead_pos : (finishRead s).pos = s.pos := rfl
@[simp] theorem finishRead_eosFlag : (finishRead s).eosFlag = s.eosFlag := rfl
@[simp] theorem finishRead_blockPos : (finishRead s).blockPos = s.blockPos := rfl
@[simp] theorem finishRead_ima : (finishRead s).ima = s.ima := rfl
@[simp] theorem finishRead_ms : (finishRead s).ms = s.ms := rfl
@[simp] theorem finishRead_reqN : (finishRead s).reqN = 0 := rfl
@[simp] theorem finishRead_outCount : (finishRead s).outCount = 0 := rfl
@[simp] theorem finishRead_src : (finishRead s).src = s.src := rfl
@[simp] theorem finishRead_out : (finishRead s).out = s.out := rfl
@[simp] theorem finishRead_events : (finishRead s).events = s.events := rfl
@[simp] theorem finishRead_host : (finishRead s).host = s.host := rfl
@[simp] theorem finishRead_drawIx : (finishRead s).drawIx = s.drawIx := rfl

/-! `afterReads` -/

@[simp] theorem afterReads_mode (n : Nat) : (afterReads n s).mode = s.mode := rfl
@[simp] theorem afterReads_faultCode (n : Nat) : (afterReads n s).faultCode = s.faultCode := rfl
@[simp] theorem afterReads_cmd (n : Nat) : (afterReads n s).cmd = s.cmd := rfl
@[simp] theorem afterReads_result (n : Nat) : (afterReads n s).result = s.result := rfl
@[simp] theorem afterReads_args (n : Nat) : (afterReads n s).args = s.args := rfl
@[simp] theorem afterReads_latched (n : Nat) : (afterReads n s).latched = s.latched := rfl
@[simp] theorem afterReads_pos (n : Nat) : (afterReads n s).pos = s.pos + min n (s.src.len - s.pos) := rfl
@[simp] theorem afterReads_eosFlag (n : Nat) : (afterReads n s).eosFlag = (s.eosFlag || decide (s.src.len - s.pos < n)) := rfl
@[simp] theorem afterReads_blockPos (n : Nat) : (afterReads n s).blockPos = s.blockPos := rfl
@[simp] theorem afterReads_ima (n : Nat) : (afterReads n s).ima = s.ima := rfl
@[simp] theorem afterReads_ms (n : Nat) : (afterReads n s).ms = s.ms := rfl
@[simp] theorem afterReads_reqN (n : Nat) : (afterReads n s).reqN = s.reqN := rfl
@[simp] theorem afterReads_outCount (n : Nat) : (afterReads n s).outCount = s.outCount := rfl
@[simp] theorem afterReads_src (n : Nat) : (afterReads n s).src = s.src := rfl
@[simp] theorem afterReads_out (n : Nat) : (afterReads n s).out = s.out := rfl
@[simp] theorem afterReads_events (n : Nat) : (afterReads n s).events = s.events := rfl
@[simp] theorem afterReads_host (n : Nat) : (afterReads n s).host = s.host := rfl
@[simp] theorem afterReads_drawIx (n : Nat) : (afterReads n s).drawIx = s.drawIx + (n - (s.src.len - s.pos)) := rfl

end Sys2Proof.Machine
end

