-- ==== Sys2Proof/Laws/Source.lean ====
section
/-! SUPPORT. Reading the source: every read is a byte of `wireByte` and leaves `afterReads` (20_memory.md R55 to R58). -/

namespace Sys2Proof.Machine

variable (s : State)

@[simp] theorem srcReadByte_fst : (srcReadByte s).1 = wireByte s 0 := by
  unfold srcReadByte wireByte
  by_cases h : s.pos < s.src.len
  · simp [h, Nat.sub_pos_of_lt h]
  · have h0 : s.src.len - s.pos = 0 := by omega
    simp [h, h0]

@[simp] theorem srcReadByte_snd : (srcReadByte s).2 = afterReads 1 s := by
  unfold srcReadByte afterReads
  by_cases h : s.pos < s.src.len
  · have h1 : min 1 (s.src.len - s.pos) = 1 := by omega
    have h2 : ¬s.src.len - s.pos < 1 := by omega
    have h3 : 1 - (s.src.len - s.pos) = 0 := by omega
    simp [h, h1, h2, h3]
  · have h1 : min 1 (s.src.len - s.pos) = 0 := by omega
    have h2 : s.src.len - s.pos < 1 := by omega
    have h3 : 1 - (s.src.len - s.pos) = 1 := by omega
    simp [h, h1, h2, h3]

@[simp] theorem afterReads_zero : afterReads 0 s = s := by
  simp [afterReads]

@[simp] theorem wireByte_afterReads (n k : Nat) : wireByte (afterReads n s) k = wireByte s (n + k) := by
  show (if k < s.src.len - (s.pos + min n (s.src.len - s.pos))
      then cellRead s.src.cells (s.pos + min n (s.src.len - s.pos) + k)
      else Config.draw (s.drawIx + (n - (s.src.len - s.pos)) +
        (k - (s.src.len - (s.pos + min n (s.src.len - s.pos)))))) = wireByte s (n + k)
  unfold wireByte
  by_cases h : n + k < s.src.len - s.pos
  · rw [if_pos h, if_pos (by omega), show s.pos + min n (s.src.len - s.pos) + k = s.pos + (n + k) by omega]
  · rw [if_neg h, if_neg (by omega)]
    congr 1
    omega

@[simp] theorem afterReads_afterReads (n m : Nat) : afterReads m (afterReads n s) = afterReads (n + m) s := by
  have h1 : s.pos + min n (s.src.len - s.pos) + min m (s.src.len - (s.pos + min n (s.src.len - s.pos)))
      = s.pos + min (n + m) (s.src.len - s.pos) := by omega
  have h2 : s.drawIx + (n - (s.src.len - s.pos)) + (m - (s.src.len - (s.pos + min n (s.src.len - s.pos))))
      = s.drawIx + (n + m - (s.src.len - s.pos)) := by omega
  have h3 : (s.eosFlag || decide (s.src.len - s.pos < n) ||
      decide (s.src.len - (s.pos + min n (s.src.len - s.pos)) < m))
      = (s.eosFlag || decide (s.src.len - s.pos < n + m)) := by
    rw [Bool.or_assoc]
    congr 1
    rw [← Bool.decide_or]
    exact decide_eq_decide.2 (by omega)
  show State.mk _ _ _ _ _ _ (s.pos + min n (s.src.len - s.pos) +
      min m (s.src.len - (s.pos + min n (s.src.len - s.pos)))) (s.eosFlag || decide (s.src.len - s.pos < n) ||
      decide (s.src.len - (s.pos + min n (s.src.len - s.pos)) < m)) _ _ _ _ _ _ _ _ _
      (s.drawIx + (n - (s.src.len - s.pos)) + (m - (s.src.len - (s.pos + min n (s.src.len - s.pos))))) = _
  rw [h1, h2, h3]
  rfl

@[simp] theorem srcRead16_fst : (srcRead16 s).1 = wireField s 0 := by
  simp [srcRead16, wireField]

@[simp] theorem srcRead16_snd : (srcRead16 s).2 = afterReads 2 s := by
  simp [srcRead16]

@[simp] theorem srcRead32_fst : (srcRead32 s).1 =
    le32 (wireByte s 0) (wireByte s 1) (wireByte s 2) (wireByte s 3) := by
  simp [srcRead32]

@[simp] theorem srcRead32_snd : (srcRead32 s).2 = afterReads 4 s := by
  simp [srcRead32]

@[simp] theorem wireField_afterReads (n k : Nat) : wireField (afterReads n s) k = wireField s (n + k) := by
  simp [wireField, Nat.add_assoc]

/-! A unit's bytes depend on the source, the read position and the count of draws only. -/

@[simp] theorem wireByte_setIma (c : Chan) (v : ImaChan) (k : Nat) : wireByte (setIma c v s) k = wireByte s k := rfl

@[simp] theorem wireByte_setMs (c : Chan) (v : MsChan) (k : Nat) : wireByte (setMs c v s) k = wireByte s k := rfl

@[simp] theorem wireByte_setBlockPos (v : U32) (k : Nat) : wireByte (setBlockPos v s) k = wireByte s k := rfl

@[simp] theorem wireByte_addCount (v : U32) (k : Nat) : wireByte (addCount v s) k = wireByte s k := rfl

@[simp] theorem wireByte_setOut (i : Nat) (v : Sample) (k : Nat) : wireByte (setOut i v s) k = wireByte s k := rfl

@[simp] theorem wireField_setMs (c : Chan) (v : MsChan) (k : Nat) : wireField (setMs c v s) k = wireField s k := rfl

/-! Reading commutes with the register updates. -/

theorem afterReads_setIma (n : Nat) (c : Chan) (v : ImaChan) :
    afterReads n (setIma c v s) = setIma c v (afterReads n s) := rfl

theorem afterReads_setMs (n : Nat) (c : Chan) (v : MsChan) :
    afterReads n (setMs c v s) = setMs c v (afterReads n s) := rfl

theorem afterReads_setBlockPos (n : Nat) (v : U32) :
    afterReads n (setBlockPos v s) = setBlockPos v (afterReads n s) := rfl

theorem afterReads_setOut (n : Nat) (i : Nat) (v : Sample) :
    afterReads n (setOut i v s) = setOut i v (afterReads n s) := rfl

theorem afterReads_addCount (n : Nat) (k : U32) :
    afterReads n (addCount k s) = addCount k (afterReads n s) := rfl

end Sys2Proof.Machine
end

