-- ==== Sys2Proof/Laws/Ima.lean ====
section
/-! SUPPORT. What the output write, the IMA primitive and the IMA-family micro-operations can do. -/

namespace Sys2Proof.Machine

/-! ### Output writes -/

theorem outWrite_done {i : Nat} {s : State} (h : i < s.reqN.toNat) (v : Sample) :
    outWrite i v s = .done () (setOut i v s) := by
  rw [outWrite, if_neg (by omega)]

theorem outWrite_raised {i : Nat} {s : State} (h : s.reqN.toNat ≤ i) (v : Sample) :
    outWrite i v s = .raised (raise .outputOverrun s) := by
  rw [outWrite, if_pos h]

@[simp] theorem andThen_done {α β : Type} (v : α) (s : State) (f : α → State → Res β) :
    (Res.done v s).andThen f = f v s := rfl

@[simp] theorem andThen_raised {α β : Type} (s : State) (f : α → State → Res β) :
    (Res.raised s : Res α).andThen f = .raised s := rfl

@[simp] theorem state_done {α : Type} (v : α) (s : State) : (Res.done v s).state = s := rfl

@[simp] theorem state_raised {α : Type} (s : State) : (Res.raised s : Res α).state = s := rfl

/-- A property of the state an operation leaves, kept by what follows, holds after both. -/
theorem andThen_state {α β : Type} {P : State → Prop} {r : Res α} {f : α → State → Res β}
    (h1 : P r.state) (h2 : ∀ v t, P t → P (f v t).state) : P (r.andThen f).state := by
  cases r with
  | done v t => exact h2 v t h1
  | raised t => exact h1

/-! ### DECODE_IMA -/

theorem imaStep_bounds {i : Int} (h0 : 0 ≤ i) (h1 : i ≤ 88) : 7 ≤ imaStep i ∧ imaStep i ≤ 32767 := by
  have h : ∀ n < 89, (7 : Int) ≤ imaSteps.getD n 0 ∧ (imaSteps.getD n 0 : Int) ≤ 32767 := by decide
  exact h i.toNat (by omega)

theorem stepAdjust_bounds (code : Code) : -1 ≤ stepAdjust code ∧ stepAdjust code ≤ 8 := by
  revert code
  decide

theorem imaNext_last_toInt (code : Code) (v : ImaChan) :
    (imaNext code v).last.toInt =
      clamp (v.last.toInt + imaDiff code (imaStep v.stepIndex.toInt)) (-32768) 32767 := by
  have h := clamp_bounds (v.last.toInt + imaDiff code (imaStep v.stepIndex.toInt)) (-32768) 32767 (by decide)
  exact s32_toInt (by omega) (by omega)

theorem imaNext_stepIndex_toInt (code : Code) (v : ImaChan) :
    (imaNext code v).stepIndex.toInt = clamp (v.stepIndex.toInt + stepAdjust code) 0 88 := by
  have h := clamp_bounds (v.stepIndex.toInt + stepAdjust code) 0 88 (by decide)
  exact s32_toInt (by omega) (by omega)

theorem imaNext_last_bounds (code : Code) (v : ImaChan) :
    -32768 ≤ (imaNext code v).last.toInt ∧ (imaNext code v).last.toInt ≤ 32767 := by
  rw [imaNext_last_toInt]
  exact clamp_bounds _ _ _ (by decide)

theorem stepIndexOk_iff (v : ImaChan) : stepIndexOk v = true ↔ 0 ≤ v.stepIndex.toInt ∧ v.stepIndex.toInt ≤ 88 := by
  simp [stepIndexOk]

theorem stepIndexOk_imaNext (code : Code) (v : ImaChan) : stepIndexOk (imaNext code v) = true := by
  rw [stepIndexOk_iff, imaNext_stepIndex_toInt]
  exact clamp_bounds _ _ _ (by decide)

/-- The sample written is the new `last[c]`, narrowed without loss (R132). -/
theorem imaSample_toInt (code : Code) (v : ImaChan) :
    (s16 (imaNext code v).last.toInt).toInt = (imaNext code v).last.toInt :=
  s16_toInt (imaNext_last_bounds code v).1 (imaNext_last_bounds code v).2

/-- Everything DECODE_IMA can do (R132). -/
theorem decodeIma_ok {c : Chan} {s : State} (h : stepIndexOk (s.ima.get c) = true) (code : Code) :
    decodeIma code c s =
      .done (s16 (imaNext code (s.ima.get c)).last.toInt) (setIma c (imaNext code (s.ima.get c)) s) := by
  simp only [decodeIma, h, if_true]

theorem decodeIma_fault {c : Chan} {s : State} (h : stepIndexOk (s.ima.get c) = false) (code : Code) :
    decodeIma code c s = .raised (raise .stepIndexRange s) := by
  simp [decodeIma, h]

/-- One decoded sample written: the channel's registers, then the element. -/
theorem emitIma_ok {i : Nat} {c : Chan} {s : State} (h : stepIndexOk (s.ima.get c) = true)
    (hi : i < s.reqN.toNat) (code : Code) :
    emitIma i code c s = .done ()
      (setOut i (s16 (imaNext code (s.ima.get c)).last.toInt) (setIma c (imaNext code (s.ima.get c)) s)) := by
  simp only [emitIma, decodeIma_ok h, andThen_done]
  exact outWrite_done (s := setIma c (imaNext code (s.ima.get c)) s) hi _

theorem emitIma_fault {i : Nat} {c : Chan} {s : State} (h : stepIndexOk (s.ima.get c) = false) (code : Code) :
    emitIma i code c s = .raised (raise .stepIndexRange s) := by
  simp only [emitIma, decodeIma_fault h, andThen_raised]

/-! ### The micro-operations, where no step index is out of range and the request has room -/

theorem imaByte_stereo {s : State} (hch : s.latched.channels = 2) (h0 : stepIndexOk s.ima.ch0 = true)
    (h1 : stepIndexOk s.ima.ch1 = true) (hn : s.outCount.toNat + 2 ≤ s.reqN.toNat) :
    imaByte s = .done () (addCount 2
      (setOut (s.outCount.toNat + 1) (s16 (imaNext (loNibble (wireByte s 0)) s.ima.ch1).last.toInt)
        (setIma .c1 (imaNext (loNibble (wireByte s 0)) s.ima.ch1)
          (setOut s.outCount.toNat (s16 (imaNext (hiNibble (wireByte s 0)) s.ima.ch0).last.toInt)
            (setIma .c0 (imaNext (hiNibble (wireByte s 0)) s.ima.ch0) (afterReads 1 s)))))) := by
  have e0 := emitIma_ok (i := s.outCount.toNat) (c := .c0) (s := afterReads 1 s) h0
    (show s.outCount.toNat < s.reqN.toNat by omega) (hiNibble (wireByte s 0))
  have e1 := emitIma_ok (i := s.outCount.toNat + 1) (c := .c1)
    (s := setOut s.outCount.toNat (s16 (imaNext (hiNibble (wireByte s 0)) s.ima.ch0).last.toInt)
      (setIma .c0 (imaNext (hiNibble (wireByte s 0)) s.ima.ch0) (afterReads 1 s))) h1
    (show s.outCount.toNat + 1 < s.reqN.toNat by omega) (loNibble (wireByte s 0))
  simp only [imaByte, srcReadByte_fst, srcReadByte_snd, lastChan, hch, if_true]
  rw [e0, andThen_done]
  exact congrArg (fun r => r.andThen fun _ t => Res.done () (addCount 2 t)) e1

theorem imaByte_mono {s : State} (hch : s.latched.channels ≠ 2) (h0 : stepIndexOk s.ima.ch0 = true)
    (hn : s.outCount.toNat + 2 ≤ s.reqN.toNat) :
    imaByte s = .done () (addCount 2
      (setOut (s.outCount.toNat + 1)
        (s16 (imaNext (loNibble (wireByte s 0)) (imaNext (hiNibble (wireByte s 0)) s.ima.ch0)).last.toInt)
        (setIma .c0 (imaNext (loNibble (wireByte s 0)) (imaNext (hiNibble (wireByte s 0)) s.ima.ch0))
          (setOut s.outCount.toNat (s16 (imaNext (hiNibble (wireByte s 0)) s.ima.ch0).last.toInt)
            (setIma .c0 (imaNext (hiNibble (wireByte s 0)) s.ima.ch0) (afterReads 1 s)))))) := by
  have e0 := emitIma_ok (i := s.outCount.toNat) (c := .c0) (s := afterReads 1 s) h0
    (show s.outCount.toNat < s.reqN.toNat by omega) (hiNibble (wireByte s 0))
  have e1 := emitIma_ok (i := s.outCount.toNat + 1) (c := .c0)
    (s := setOut s.outCount.toNat (s16 (imaNext (hiNibble (wireByte s 0)) s.ima.ch0).last.toInt)
      (setIma .c0 (imaNext (hiNibble (wireByte s 0)) s.ima.ch0) (afterReads 1 s)))
    (stepIndexOk_imaNext _ _) (show s.outCount.toNat + 1 < s.reqN.toNat by omega) (loNibble (wireByte s 0))
  simp only [imaByte, srcReadByte_fst, srcReadByte_snd, lastChan, hch, if_false]
  rw [e0, andThen_done]
  exact congrArg (fun r => r.andThen fun _ t => Res.done () (addCount 2 t)) e1

theorem msimaHdr_eq (s : State) :
    msimaHdr s = setBlockPos 4
      (setIma .c0 ⟨(wireField s 0).signExtend 32, (wireField s 2).signExtend 32⟩ (afterReads 4 s)) := by
  simp only [msimaHdr, srcRead16_fst, srcRead16_snd, wireField_afterReads, afterReads_afterReads, Nat.add_zero]

theorem msimaByte_ok {s : State} (h0 : stepIndexOk s.ima.ch0 = true) (hn : s.outCount.toNat + 2 ≤ s.reqN.toNat) :
    msimaByte s = .done () (addCount 2
      (setOut (s.outCount.toNat + 1)
        (s16 (imaNext (hiNibble (wireByte s 0)) (imaNext (loNibble (wireByte s 0)) s.ima.ch0)).last.toInt)
        (setIma .c0 (imaNext (hiNibble (wireByte s 0)) (imaNext (loNibble (wireByte s 0)) s.ima.ch0))
          (setOut s.outCount.toNat (s16 (imaNext (loNibble (wireByte s 0)) s.ima.ch0).last.toInt)
            (setIma .c0 (imaNext (loNibble (wireByte s 0)) s.ima.ch0)
              (setBlockPos (s.blockPos.ch0 + 1) (afterReads 1 s))))))) := by
  have e0 := emitIma_ok (i := s.outCount.toNat) (c := .c0)
    (s := setBlockPos (s.blockPos.ch0 + 1) (afterReads 1 s)) h0
    (show s.outCount.toNat < s.reqN.toNat by omega) (loNibble (wireByte s 0))
  have e1 := emitIma_ok (i := s.outCount.toNat + 1) (c := .c0)
    (s := setOut s.outCount.toNat (s16 (imaNext (loNibble (wireByte s 0)) s.ima.ch0).last.toInt)
      (setIma .c0 (imaNext (loNibble (wireByte s 0)) s.ima.ch0)
        (setBlockPos (s.blockPos.ch0 + 1) (afterReads 1 s))))
    (stepIndexOk_imaNext _ _) (show s.outCount.toNat + 1 < s.reqN.toNat by omega) (hiNibble (wireByte s 0))
  simp only [msimaByte, srcReadByte_fst, srcReadByte_snd, afterReads_blockPos]
  rw [e0, andThen_done]
  exact congrArg (fun r => r.andThen fun _ t => Res.done () (addCount 2 t)) e1

theorem imaByte_fault_first {s : State} (h0 : stepIndexOk s.ima.ch0 = false) :
    imaByte s = .raised (raise .stepIndexRange (afterReads 1 s)) := by
  have e0 := emitIma_fault (i := s.outCount.toNat) (c := .c0) (s := afterReads 1 s) h0 (hiNibble (wireByte s 0))
  simp only [imaByte, srcReadByte_fst, srcReadByte_snd]
  rw [e0]
  rfl

/-- In stereo a fault of the second decode keeps what the first wrote. -/
theorem imaByte_fault_second {s : State} (hch : s.latched.channels = 2) (hn : s.outCount.toNat < s.reqN.toNat)
    (h0 : stepIndexOk s.ima.ch0 = true) (h1 : stepIndexOk s.ima.ch1 = false) :
    imaByte s = .raised (raise .stepIndexRange
      (setOut s.outCount.toNat (s16 (imaNext (hiNibble (wireByte s 0)) s.ima.ch0).last.toInt)
        (setIma .c0 (imaNext (hiNibble (wireByte s 0)) s.ima.ch0) (afterReads 1 s)))) := by
  have e0 := emitIma_ok (i := s.outCount.toNat) (c := .c0) (s := afterReads 1 s) h0 hn (hiNibble (wireByte s 0))
  have e1 := emitIma_fault (i := s.outCount.toNat + 1) (c := .c1)
    (s := setOut s.outCount.toNat (s16 (imaNext (hiNibble (wireByte s 0)) s.ima.ch0).last.toInt)
      (setIma .c0 (imaNext (hiNibble (wireByte s 0)) s.ima.ch0) (afterReads 1 s))) h1 (loNibble (wireByte s 0))
  simp only [imaByte, srcReadByte_fst, srcReadByte_snd, lastChan, hch, if_pos]
  rw [e0, andThen_done]
  exact congrArg (fun r => Res.andThen r _) e1

theorem msimaByte_fault {s : State} (h0 : stepIndexOk s.ima.ch0 = false) :
    msimaByte s = .raised (raise .stepIndexRange (setBlockPos (s.blockPos.ch0 + 1) (afterReads 1 s))) := by
  have e0 := emitIma_fault (i := s.outCount.toNat) (c := .c0)
    (s := setBlockPos (s.blockPos.ch0 + 1) (afterReads 1 s)) h0 (loNibble (wireByte s 0))
  simp only [msimaByte, srcReadByte_fst, srcReadByte_snd, afterReads_blockPos]
  rw [e0]
  rfl

/-! ### A group -/

/-- `s` with these IMA registers and this output. -/
def withImaOut (p : PerChan ImaChan) (o : OutSpace) (s : State) : State := { s with ima := p, out := o }

@[simp] theorem withImaOut_mode (p : PerChan ImaChan) (o : OutSpace) (s : State) :
    (withImaOut p o s).mode = s.mode := rfl
@[simp] theorem withImaOut_faultCode (p : PerChan ImaChan) (o : OutSpace) (s : State) :
    (withImaOut p o s).faultCode = s.faultCode := rfl
@[simp] theorem withImaOut_cmd (p : PerChan ImaChan) (o : OutSpace) (s : State) :
    (withImaOut p o s).cmd = s.cmd := rfl
@[simp] theorem withImaOut_result (p : PerChan ImaChan) (o : OutSpace) (s : State) :
    (withImaOut p o s).result = s.result := rfl
@[simp] theorem withImaOut_args (p : PerChan ImaChan) (o : OutSpace) (s : State) :
    (withImaOut p o s).args = s.args := rfl
@[simp] theorem withImaOut_latched (p : PerChan ImaChan) (o : OutSpace) (s : State) :
    (withImaOut p o s).latched = s.latched := rfl
@[simp] theorem withImaOut_pos (p : PerChan ImaChan) (o : OutSpace) (s : State) :
    (withImaOut p o s).pos = s.pos := rfl
@[simp] theorem withImaOut_eosFlag (p : PerChan ImaChan) (o : OutSpace) (s : State) :
    (withImaOut p o s).eosFlag = s.eosFlag := rfl
@[simp] theorem withImaOut_blockPos (p : PerChan ImaChan) (o : OutSpace) (s : State) :
    (withImaOut p o s).blockPos = s.blockPos := rfl
@[simp] theorem withImaOut_ima (p : PerChan ImaChan) (o : OutSpace) (s : State) :
    (withImaOut p o s).ima = p := rfl
@[simp] theorem withImaOut_ms (p : PerChan ImaChan) (o : OutSpace) (s : State) :
    (withImaOut p o s).ms = s.ms := rfl
@[simp] theorem withImaOut_reqN (p : PerChan ImaChan) (o : OutSpace) (s : State) :
    (withImaOut p o s).reqN = s.reqN := rfl
@[simp] theorem withImaOut_outCount (p : PerChan ImaChan) (o : OutSpace) (s : State) :
    (withImaOut p o s).outCount = s.outCount := rfl
@[simp] theorem withImaOut_src (p : PerChan ImaChan) (o : OutSpace) (s : State) :
    (withImaOut p o s).src = s.src := rfl
@[simp] theorem withImaOut_out (p : PerChan ImaChan) (o : OutSpace) (s : State) :
    (withImaOut p o s).out = o := rfl
@[simp] theorem withImaOut_events (p : PerChan ImaChan) (o : OutSpace) (s : State) :
    (withImaOut p o s).events = s.events := rfl
@[simp] theorem withImaOut_host (p : PerChan ImaChan) (o : OutSpace) (s : State) :
    (withImaOut p o s).host = s.host := rfl
@[simp] theorem withImaOut_drawIx (p : PerChan ImaChan) (o : OutSpace) (s : State) :
    (withImaOut p o s).drawIx = s.drawIx := rfl

theorem afterReads_withImaOut (n : Nat) (p : PerChan ImaChan) (o : OutSpace) (s : State) :
    afterReads n (withImaOut p o s) = withImaOut p o (afterReads n s) := rfl

theorem wireByte_withImaOut (p : PerChan ImaChan) (o : OutSpace) (s : State) (k : Nat) :
    wireByte (withImaOut p o s) k = wireByte s k := rfl

theorem withImaOut_withImaOut (p q : PerChan ImaChan) (o r : OutSpace) (s : State) :
    withImaOut q r (withImaOut p o s) = withImaOut q r s := rfl

/-- The nibbles `ks` of a word written out, from a legal step index and with room for each: the channel's registers
run over the codes, and nibble j of the list is the sample at its place; nothing else changes (R166). -/
theorem emitNibbles_ok (c : Chan) (w : U32) (base : Nat) (ks : List Nat) (s : State)
    (hok : stepIndexOk (s.ima.get c) = true) (hwf : cellsWf s.out) (hnd : ks.Nodup)
    (hroom : ∀ k ∈ ks, base + 2 * k < s.reqN.toNat) :
    ∃ o, emitNibbles c w base ks s =
        .done () (withImaOut (s.ima.set c (imaAfter (ks.map (wordNibble w)) (s.ima.get c))) o s) ∧
      cellsWf o ∧
      (∀ j k, ks[j]? = some k → (cellRead o (base + 2 * k)).toInt =
        (imaAfter ((ks.map (wordNibble w)).take (j + 1)) (s.ima.get c)).last.toInt) ∧
      ∀ i, (∀ k ∈ ks, i ≠ base + 2 * k) → cellRead o i = cellRead s.out i := by
  induction ks generalizing s with
  | nil => exact ⟨s.out, by simp [emitNibbles, imaAfter, withImaOut], hwf, by simp, fun _ _ => rfl⟩
  | cons k ks ih =>
    let v := imaNext (wordNibble w k) (s.ima.get c)
    let t := setOut (base + 2 * k) (s16 v.last.toInt) (setIma c v s)
    have hv : t.ima.get c = v := get_set_same _ _ _
    obtain ⟨hk, hks⟩ := List.nodup_cons.1 hnd
    obtain ⟨o, he, ho, hval, hother⟩ := ih t (by rw [hv]; exact stepIndexOk_imaNext _ _)
      (cellsWf_cellWrite hwf _ _) hks (fun j hj => hroom j (List.mem_cons_of_mem _ hj))
    rw [hv] at he hval
    refine ⟨o, ?_, ho, ?_, ?_⟩
    · have hset : t.ima.set c (imaAfter (ks.map (wordNibble w)) v) =
          s.ima.set c (imaAfter (ks.map (wordNibble w)) v) := set_set _ _ _ _
      rw [emitNibbles, emitIma_ok hok (hroom k (by simp)), andThen_done]
      refine he.trans ?_
      rw [hset]
      rfl
    · intro j k' hj
      cases j with
      | zero =>
        obtain rfl : k = k' := by simpa using hj
        have hne : ∀ x ∈ ks, base + 2 * k ≠ base + 2 * x := fun x hx hxk =>
          hk ((show k = x by omega) ▸ hx)
        rw [hother _ hne]
        show (cellRead (cellWrite s.out (base + 2 * k) (s16 v.last.toInt)) (base + 2 * k)).toInt = _
        rw [cellRead_cellWrite_same hwf]
        exact imaSample_toInt _ _
      | succ j => exact hval j k' (by simpa using hj)
    · intro i hi
      rw [hother i fun x hx => hi x (List.mem_cons_of_mem _ hx)]
      exact cellRead_cellWrite_other (hi k (by simp)) _

/-- One channel's half of a group (R166). -/
theorem groupChannel_ok (c : Chan) (base : Nat) (s : State) (hok : stepIndexOk (s.ima.get c) = true)
    (hwf : cellsWf s.out) (hroom : base + 16 ≤ s.reqN.toNat) :
    ∃ o, groupChannel c base s = .done () (withImaOut
          (s.ima.set c (imaAfter (groupCodes (srcRead32 s).1) (s.ima.get c))) o (afterReads 4 s)) ∧
      cellsWf o ∧
      (∀ k < 8, (cellRead o (base + chanNum c + 2 * k)).toInt =
        (imaAfter ((groupCodes (srcRead32 s).1).take (k + 1)) (s.ima.get c)).last.toInt) ∧
      ∀ i, (∀ k < 8, i ≠ base + chanNum c + 2 * k) → cellRead o i = cellRead s.out i := by
  have hc : chanNum c ≤ 1 := by cases c <;> decide
  have hk8 : ∀ x ∈ [0, 1, 2, 3, 4, 5, 6, 7], x < 8 := by decide
  obtain ⟨o, he, ho, hval, hother⟩ := emitNibbles_ok c (srcRead32 s).1 (base + chanNum c)
    [0, 1, 2, 3, 4, 5, 6, 7] (afterReads 4 s) hok hwf (by decide) (by
      intro k hk
      have := hk8 k hk
      show base + chanNum c + 2 * k < s.reqN.toNat
      omega)
  have hget : ∀ k < 8, ([0, 1, 2, 3, 4, 5, 6, 7] : List Nat)[k]? = some k := by decide
  refine ⟨o, ?_, ho, fun k hk => hval k k (hget k hk), fun i hi => hother i fun k hk => hi k (hk8 k hk)⟩
  rw [groupChannel, srcRead32_snd]
  exact he

/-- Everything a group does from legal step indices and with room (R166). -/
theorem msimaGroup_ok (s : State) (h0 : stepIndexOk s.ima.ch0 = true) (h1 : stepIndexOk s.ima.ch1 = true)
    (hwf : cellsWf s.out) (hroom : s.outCount.toNat + 16 ≤ s.reqN.toNat) :
    ∃ o, msimaGroup s = .done () (addCount 16 (withImaOut
          ⟨imaAfter (groupCodes (groupWordAt s .c0)) s.ima.ch0, imaAfter (groupCodes (groupWordAt s .c1)) s.ima.ch1⟩
          o (afterReads 8 s))) ∧
      cellsWf o ∧
      (∀ c, ∀ k < 8, (cellRead o (s.outCount.toNat + chanNum c + 2 * k)).toInt =
        (imaAfter ((groupCodes (groupWordAt s c)).take (k + 1)) (s.ima.get c)).last.toInt) ∧
      ∀ i, (i < s.outCount.toNat ∨ s.outCount.toNat + 16 ≤ i) → cellRead o i = cellRead s.out i := by
  obtain ⟨o, he, ho, hval, hother⟩ := groupChannel_ok .c0 s.outCount.toNat s h0 hwf hroom
  rw [srcRead32_fst, show le32 (wireByte s 0) (wireByte s 1) (wireByte s 2) (wireByte s 3) = groupWordAt s .c0
    from rfl] at he hval
  generalize hx0 : s.ima.set .c0 (imaAfter (groupCodes (groupWordAt s .c0)) (s.ima.get .c0)) = p at he
  have hp1 : p.get .c1 = s.ima.ch1 := by
    rw [← hx0]
    exact get_set_other _ (by decide) _
  obtain ⟨o', he', ho', hval', hother'⟩ := groupChannel_ok .c1 s.outCount.toNat (withImaOut p o (afterReads 4 s))
    (show stepIndexOk (p.get .c1) = true by rw [hp1]; exact h1) ho hroom
  have hw1 : (srcRead32 (withImaOut p o (afterReads 4 s))).1 = groupWordAt s .c1 := by
    simp only [srcRead32_fst, wireByte_withImaOut, wireByte_afterReads, Nat.add_zero]
    rfl
  rw [hw1] at he' hval'
  rw [afterReads_withImaOut, afterReads_afterReads, withImaOut_withImaOut] at he'
  replace he' : groupChannel .c1 s.outCount.toNat (withImaOut p o (afterReads 4 s)) = .done ()
      (withImaOut (p.set .c1 (imaAfter (groupCodes (groupWordAt s .c1)) (p.get .c1))) o' (afterReads 8 s)) := he'
  replace hval' : ∀ k < 8, (cellRead o' (s.outCount.toNat + chanNum .c1 + 2 * k)).toInt =
      (imaAfter ((groupCodes (groupWordAt s .c1)).take (k + 1)) (p.get .c1)).last.toInt := hval'
  rw [hp1] at he' hval'
  refine ⟨o', ?_, ho', ?_, ?_⟩
  · rw [msimaGroup, he, andThen_done, he', andThen_done, ← hx0]
    rfl
  · intro c k hk
    cases c with
    | c0 =>
      rw [hother' _ fun x _ => by simp only [chanNum]; omega]
      exact hval k hk
    | c1 => exact hval' k hk
  · intro i hi
    rw [hother' i fun k hk => by simp only [chanNum]; omega]
    exact hother i fun k hk => by simp only [chanNum]; omega

end Sys2Proof.Machine
end

