-- ==== Sys2Proof/Laws/MsAdpcm.lean ====
section
/-! SUPPORT. What the MS-ADPCM primitive and its micro-operations can do. -/

namespace Sys2Proof.Machine

/-! ### DECODE_MS -/

theorem msAdapt_bounds (code : Code) : 230 ≤ msAdapt code ∧ msAdapt code ≤ 768 := by
  revert code
  decide

theorem msNext_sample1_toInt (bits : DeltaBits) (code : Code) (v : MsChan) :
    (msNext bits code v).sample1.toInt = clamp (msSum code v) (-32768) 32767 := by
  have h := clamp_bounds (msSum code v) (-32768) 32767 (by decide)
  exact s16_toInt h.1 h.2

theorem inS32_iff (v : Int) : inS32 v = true ↔ -2147483648 ≤ v ∧ v ≤ 2147483647 := by
  simp [inS32]

theorem msOverflow_eq_false (code : Code) (v : MsChan) :
    msOverflow code v = false ↔ inS32 (msWeighted v) = true ∧ inS32 (msStep code v) = true ∧
      inS32 (msSum code v) = true ∧ inS32 (msProduct code v) = true := by
  simp [msOverflow, and_assoc]

/-- The new delta before storing, by width (R184). -/
theorem msDelta_bits16 (code : Code) (v : MsChan) :
    msDelta .bits16 code v = max 16 (wrap16 (sar8 (msProduct code v))) := by
  simp only [msDelta]
  split <;> omega

theorem msDelta_bits32 (code : Code) (v : MsChan) : msDelta .bits32 code v = max 16 (sar8 (msProduct code v)) := by
  simp only [msDelta]
  split <;> omega

theorem msDelta_bounds (bits : DeltaBits) (code : Code) (v : MsChan)
    (h : bits = .bits32 → msOverflow code v = false) :
    16 ≤ msDelta bits code v ∧ msDelta bits code v ≤ 2147483647 ∧
      (bits = .bits16 → msDelta bits code v ≤ 32767) := by
  cases bits with
  | bits16 =>
    have := wrap16_bounds (sar8 (msProduct code v))
    rw [msDelta_bits16]
    omega
  | bits32 =>
    have hp := (inS32_iff _).1 ((msOverflow_eq_false code v).1 (h rfl)).2.2.2
    rw [msDelta_bits32, sar8]
    refine ⟨by omega, by omega, fun h => by cases h⟩

theorem msNext_delta_toInt (bits : DeltaBits) (code : Code) (v : MsChan)
    (h : bits = .bits32 → msOverflow code v = false) :
    (msNext bits code v).delta.toInt = msDelta bits code v := by
  have := msDelta_bounds bits code v h
  exact s32_toInt (by omega) (by omega)

/-- Everything DECODE_MS can do (R184). -/
theorem decodeMs_ok {bits : DeltaBits} {c : Chan} {code : Code} {s : State}
    (h : bits = .bits32 → msOverflow code (s.ms.get c) = false) :
    decodeMs bits c code s =
      .done (msNext bits code (s.ms.get c)).sample1 (setMs c (msNext bits code (s.ms.get c)) s) := by
  rw [decodeMs, if_neg]
  rintro ⟨h1, h2⟩
  rw [h h1] at h2
  cases h2

theorem decodeMs_fault {c : Chan} {code : Code} {s : State} (h : msOverflow code (s.ms.get c) = true) :
    decodeMs .bits32 c code s = .raised (raise .deltaOverflow s) := by
  rw [decodeMs, if_pos ⟨rfl, h⟩]

theorem emitMs_ok {bits : DeltaBits} {i : Nat} {c : Chan} {code : Code} {s : State}
    (h : bits = .bits32 → msOverflow code (s.ms.get c) = false) (hi : i < s.reqN.toNat) :
    emitMs bits i c code s = .done ()
      (setOut i (msNext bits code (s.ms.get c)).sample1 (setMs c (msNext bits code (s.ms.get c)) s)) := by
  rw [emitMs, decodeMs_ok h, andThen_done]
  exact outWrite_done (s := setMs c (msNext bits code (s.ms.get c)) s) hi _

theorem emitMs_fault {i : Nat} {c : Chan} {code : Code} {s : State} (h : msOverflow code (s.ms.get c) = true) :
    emitMs .bits32 i c code s = .raised (raise .deltaOverflow s) := by
  rw [emitMs, decodeMs_fault h, andThen_raised]

/-! ### MSADPCM_BYTE -/

theorem msadpcmByte_stereo {bits : DeltaBits} {s : State} (hch : s.latched.channels = 2)
    (h0 : bits = .bits32 → msOverflow (hiNibble (wireByte s 0)) s.ms.ch0 = false)
    (h1 : bits = .bits32 → msOverflow (loNibble (wireByte s 0)) s.ms.ch1 = false)
    (hn : s.outCount.toNat + 2 ≤ s.reqN.toNat) :
    msadpcmByte bits s = .done () (addCount 2
      (setOut (s.outCount.toNat + 1) (msNext bits (loNibble (wireByte s 0)) s.ms.ch1).sample1
        (setMs .c1 (msNext bits (loNibble (wireByte s 0)) s.ms.ch1)
          (setOut s.outCount.toNat (msNext bits (hiNibble (wireByte s 0)) s.ms.ch0).sample1
            (setMs .c0 (msNext bits (hiNibble (wireByte s 0)) s.ms.ch0)
              (setBlockPos (s.blockPos.ch0 + 1) (afterReads 1 s))))))) := by
  have e0 := emitMs_ok (bits := bits) (i := s.outCount.toNat) (c := .c0) (code := hiNibble (wireByte s 0))
    (s := setBlockPos (s.blockPos.ch0 + 1) (afterReads 1 s)) h0 (show s.outCount.toNat < s.reqN.toNat by omega)
  have e1 := emitMs_ok (bits := bits) (i := s.outCount.toNat + 1) (c := .c1) (code := loNibble (wireByte s 0))
    (s := setOut s.outCount.toNat (msNext bits (hiNibble (wireByte s 0)) s.ms.ch0).sample1
      (setMs .c0 (msNext bits (hiNibble (wireByte s 0)) s.ms.ch0)
        (setBlockPos (s.blockPos.ch0 + 1) (afterReads 1 s)))) h1
    (show s.outCount.toNat + 1 < s.reqN.toNat by omega)
  simp only [msadpcmByte, srcReadByte_fst, srcReadByte_snd, afterReads_blockPos, lastChan, hch, if_true]
  rw [e0, andThen_done]
  exact congrArg (fun r => r.andThen fun _ t => Res.done () (addCount 2 t)) e1

theorem msadpcmByte_mono {bits : DeltaBits} {s : State} (hch : s.latched.channels ≠ 2)
    (h0 : bits = .bits32 → msOverflow (hiNibble (wireByte s 0)) s.ms.ch0 = false)
    (h1 : bits = .bits32 →
      msOverflow (loNibble (wireByte s 0)) (msNext bits (hiNibble (wireByte s 0)) s.ms.ch0) = false)
    (hn : s.outCount.toNat + 2 ≤ s.reqN.toNat) :
    msadpcmByte bits s = .done () (addCount 2
      (setOut (s.outCount.toNat + 1)
        (msNext bits (loNibble (wireByte s 0)) (msNext bits (hiNibble (wireByte s 0)) s.ms.ch0)).sample1
        (setMs .c0 (msNext bits (loNibble (wireByte s 0)) (msNext bits (hiNibble (wireByte s 0)) s.ms.ch0))
          (setOut s.outCount.toNat (msNext bits (hiNibble (wireByte s 0)) s.ms.ch0).sample1
            (setMs .c0 (msNext bits (hiNibble (wireByte s 0)) s.ms.ch0)
              (setBlockPos (s.blockPos.ch0 + 1) (afterReads 1 s))))))) := by
  have e0 := emitMs_ok (bits := bits) (i := s.outCount.toNat) (c := .c0) (code := hiNibble (wireByte s 0))
    (s := setBlockPos (s.blockPos.ch0 + 1) (afterReads 1 s)) h0 (show s.outCount.toNat < s.reqN.toNat by omega)
  have e1 := emitMs_ok (bits := bits) (i := s.outCount.toNat + 1) (c := .c0) (code := loNibble (wireByte s 0))
    (s := setOut s.outCount.toNat (msNext bits (hiNibble (wireByte s 0)) s.ms.ch0).sample1
      (setMs .c0 (msNext bits (hiNibble (wireByte s 0)) s.ms.ch0)
        (setBlockPos (s.blockPos.ch0 + 1) (afterReads 1 s)))) h1
    (show s.outCount.toNat + 1 < s.reqN.toNat by omega)
  simp only [msadpcmByte, srcReadByte_fst, srcReadByte_snd, afterReads_blockPos, lastChan, hch, if_false]
  rw [e0, andThen_done]
  exact congrArg (fun r => r.andThen fun _ t => Res.done () (addCount 2 t)) e1

/-- The first decode of a payload byte overflows (R184, R213). -/
theorem msadpcmByte_fault_first {s : State} (h0 : msOverflow (hiNibble (wireByte s 0)) s.ms.ch0 = true) :
    msadpcmByte .bits32 s =
      .raised (raise .deltaOverflow (setBlockPos (s.blockPos.ch0 + 1) (afterReads 1 s))) := by
  have e0 := emitMs_fault (i := s.outCount.toNat) (c := .c0) (code := hiNibble (wireByte s 0))
    (s := setBlockPos (s.blockPos.ch0 + 1) (afterReads 1 s)) h0
  simp only [msadpcmByte, srcReadByte_fst, srcReadByte_snd, afterReads_blockPos]
  rw [e0]
  rfl

/-- The second decode of a payload byte overflows: the first's writes are kept (R184, R213). -/
theorem msadpcmByte_fault_second {s : State} (h0 : msOverflow (hiNibble (wireByte s 0)) s.ms.ch0 = false)
    (hn : s.outCount.toNat < s.reqN.toNat)
    (h1 : msOverflow (loNibble (wireByte s 0))
      (if s.latched.channels = 2 then s.ms.ch1 else msNext .bits32 (hiNibble (wireByte s 0)) s.ms.ch0) = true) :
    msadpcmByte .bits32 s = .raised (raise .deltaOverflow
      (setOut s.outCount.toNat (msNext .bits32 (hiNibble (wireByte s 0)) s.ms.ch0).sample1
        (setMs .c0 (msNext .bits32 (hiNibble (wireByte s 0)) s.ms.ch0)
          (setBlockPos (s.blockPos.ch0 + 1) (afterReads 1 s))))) := by
  have e0 := emitMs_ok (bits := .bits32) (i := s.outCount.toNat) (c := .c0) (code := hiNibble (wireByte s 0))
    (s := setBlockPos (s.blockPos.ch0 + 1) (afterReads 1 s)) (fun _ => h0) (show s.outCount.toNat < s.reqN.toNat from hn)
  have e1 := emitMs_fault (i := s.outCount.toNat + 1) (c := lastChan s) (code := loNibble (wireByte s 0))
    (s := setOut s.outCount.toNat (msNext .bits32 (hiNibble (wireByte s 0)) s.ms.ch0).sample1
      (setMs .c0 (msNext .bits32 (hiNibble (wireByte s 0)) s.ms.ch0)
        (setBlockPos (s.blockPos.ch0 + 1) (afterReads 1 s)))) (by
      by_cases hch : s.latched.channels = 2
      · rw [if_pos hch] at h1
        rw [lastChan, if_pos hch]
        exact h1
      · rw [if_neg hch] at h1
        rw [lastChan, if_neg hch]
        exact h1)
  simp only [msadpcmByte, srcReadByte_fst, srcReadByte_snd, afterReads_blockPos]
  rw [e0, andThen_done]
  exact congrArg (fun r => r.andThen fun _ t => Res.done () (addCount 2 t)) e1

/-! ### MSADPCM_HDR -/

theorem clampPred_toNat (p : Byte) : (clampPred p).toNat = min p.toNat 6 := by
  unfold clampPred
  split
  · omega
  · show 6 = min p.toNat 6
    omega

/-- The registers of a channel after a header with these fields, `DOC` order (R182). -/
def headerChan (v : MsChan) (p : Byte) (d a b : Sample) : MsChan :=
  { selectCoeffs { v with pred := clampPred p } with delta := d.signExtend 32, sample2 := a, sample1 := b }

/-- The two-channel header's reads and register writes (R182). -/
theorem loadHeader_stereo {s : State} (hch : s.latched.channels = 2) :
    loadHeader .doc s =
      setMs .c1 (headerChan s.ms.ch1 (wireByte s 1) (wireField s 4) (wireField s 8) (wireField s 12))
        (setMs .c0 (headerChan s.ms.ch0 (wireByte s 0) (wireField s 2) (wireField s 6) (wireField s 10))
          (afterReads 14 s)) := by
  simp only [loadHeader, channelList, hch, if_true, readPreds, readFields, storeDeltas, storeSamples,
    srcReadByte_fst, srcReadByte_snd, srcRead16_fst, srcRead16_snd, afterReads_setMs, wireByte_setMs,
    wireField_setMs, wireByte_afterReads, wireField_afterReads, afterReads_afterReads, Nat.add_zero, Nat.reduceAdd]
  rfl

/-- The one-channel header's reads and register writes (R182). -/
theorem loadHeader_mono {s : State} (hch : s.latched.channels ≠ 2) :
    loadHeader .doc s =
      setMs .c0 (headerChan s.ms.ch0 (wireByte s 0) (wireField s 1) (wireField s 3) (wireField s 5))
        (afterReads 7 s) := by
  simp only [loadHeader, channelList, hch, if_false, readPreds, readFields, storeDeltas, storeSamples,
    srcReadByte_fst, srcReadByte_snd, srcRead16_fst, srcRead16_snd, afterReads_setMs,
    wireField_setMs, wireField_afterReads, afterReads_afterReads, Nat.add_zero, Nat.reduceAdd]
  rfl

theorem msadpcmHdr_fault {o : SampleOrder} {s : State}
    (h : s.reqN.toNat < s.outCount.toNat + 2 * s.latched.channels.toNat) :
    msadpcmHdr o s = .raised (raise .outputOverrun s) := by
  rw [msadpcmHdr, if_pos (by omega)]

theorem addCount_addCount (j k : U32) (s : State) : addCount j (addCount k s) = addCount (k + j) s := by
  show { s with outCount := s.outCount + k + j } = { s with outCount := s.outCount + (k + j) }
  rw [BitVec.add_assoc]

theorem emitRegs_one (field : MsChan → Sample) {t : State} (h : t.outCount.toNat + 1 ≤ t.reqN.toNat) :
    emitRegs field [.c0] t = .done () (addCount 1 (setOut t.outCount.toNat (field t.ms.ch0) t)) := by
  rw [emitRegs, outWrite_done (by omega)]
  rfl

theorem emitRegs_two (field : MsChan → Sample) {t : State} (h : t.outCount.toNat + 2 ≤ t.reqN.toNat) :
    emitRegs field [.c0, .c1] t = .done () (addCount 2
      (setOut (t.outCount.toNat + 1) (field t.ms.ch1) (setOut t.outCount.toNat (field t.ms.ch0) t))) := by
  have hlt := t.reqN.isLt
  have e1 : (t.outCount + 1).toNat = t.outCount.toNat + 1 := by
    rw [BitVec.toNat_add]
    exact Nat.mod_eq_of_lt (by show t.outCount.toNat + 1 < 2 ^ 32; omega)
  have h2 := outWrite_done (i := t.outCount.toNat + 1)
    (s := addCount 1 (setOut t.outCount.toNat (field t.ms.ch0) t))
    (show t.outCount.toNat + 1 < t.reqN.toNat by omega) (field t.ms.ch1)
  rw [emitRegs, outWrite_done (show t.outCount.toNat < t.reqN.toNat by omega), andThen_done, emitRegs]
  show (outWrite (t.outCount + 1).toNat (field t.ms.ch1)
    (addCount 1 (setOut t.outCount.toNat (field t.ms.ch0) t))).andThen _ = _
  rw [e1, h2, andThen_done, emitRegs]
  exact congrArg (Res.done ()) (addCount_addCount 1 1
    (setOut (t.outCount.toNat + 1) (field t.ms.ch1) (setOut t.outCount.toNat (field t.ms.ch0) t)))

/-- Everything a two-channel header does where it fits (R182). -/
theorem msadpcmHdr_stereo {s : State} (hch : s.latched.channels = 2) (hn : s.outCount.toNat + 4 ≤ s.reqN.toNat) :
    msadpcmHdr .doc s = .done () (setBlockPos 14 (addCount 4
      (setOut (s.outCount.toNat + 3) (wireField s 12) (setOut (s.outCount.toNat + 2) (wireField s 10)
        (setOut (s.outCount.toNat + 1) (wireField s 8) (setOut s.outCount.toNat (wireField s 6)
          (setMs .c1 (headerChan s.ms.ch1 (wireByte s 1) (wireField s 4) (wireField s 8) (wireField s 12))
            (setMs .c0 (headerChan s.ms.ch0 (wireByte s 0) (wireField s 2) (wireField s 6) (wireField s 10))
              (afterReads 14 s))))))))) := by
  have hlt := s.reqN.isLt
  have hc : channelList s = [.c0, .c1] := by rw [channelList, if_pos hch]
  have hfit : ¬s.outCount.toNat + 2 * s.latched.channels.toNat > s.reqN.toNat := by
    rw [hch]
    show ¬s.outCount.toNat + 2 * 2 > s.reqN.toNat
    omega
  let t := loadHeader .doc s
  have ht : t = setMs .c1 (headerChan s.ms.ch1 (wireByte s 1) (wireField s 4) (wireField s 8) (wireField s 12))
      (setMs .c0 (headerChan s.ms.ch0 (wireByte s 0) (wireField s 2) (wireField s 6) (wireField s 10))
        (afterReads 14 s)) := loadHeader_stereo hch
  have hn0 : t.outCount = s.outCount := by rw [ht]; rfl
  have hr0 : t.reqN = s.reqN := by rw [ht]; rfl
  have h02 : t.ms.ch0.sample2 = wireField s 6 := by rw [ht]; rfl
  have h12 : t.ms.ch1.sample2 = wireField s 8 := by rw [ht]; rfl
  have h01 : t.ms.ch0.sample1 = wireField s 10 := by rw [ht]; rfl
  have h11 : t.ms.ch1.sample1 = wireField s 12 := by rw [ht]; rfl
  have e1 := emitRegs_two MsChan.sample2 (t := t) (by rw [hn0, hr0]; omega)
  have e2 : (s.outCount + 2).toNat = s.outCount.toNat + 2 := by
    rw [BitVec.toNat_add]
    exact Nat.mod_eq_of_lt (by show s.outCount.toNat + 2 < 2 ^ 32; omega)
  rw [hn0, h02, h12] at e1
  let u := addCount 2 (setOut (s.outCount.toNat + 1) (wireField s 8) (setOut s.outCount.toNat (wireField s 6) t))
  have hu : u.outCount.toNat = s.outCount.toNat + 2 := by
    show (t.outCount + 2).toNat = _
    rw [hn0, e2]
  have e3 := emitRegs_two MsChan.sample1 (t := u) (by
    show u.outCount.toNat + 2 ≤ t.reqN.toNat
    rw [hu, hr0]
    omega)
  have h01' : u.ms.ch0.sample1 = wireField s 10 := h01
  have h11' : u.ms.ch1.sample1 = wireField s 12 := h11
  rw [hu, h01', h11'] at e3
  rw [msadpcmHdr, if_neg hfit, hc]
  show ((emitRegs MsChan.sample2 [.c0, .c1] t).andThen _) = _
  rw [e1, andThen_done]
  show ((emitRegs MsChan.sample1 [.c0, .c1] u).andThen _) = _
  rw [e3, andThen_done, hch, ← ht]
  show Res.done () (setBlockPos 14 (addCount 2 (addCount 2 (setOut (s.outCount.toNat + 3) (wireField s 12)
    (setOut (s.outCount.toNat + 2) (wireField s 10) (setOut (s.outCount.toNat + 1) (wireField s 8)
      (setOut s.outCount.toNat (wireField s 6) t))))))) = _
  rw [addCount_addCount]
  rfl

/-- Everything a one-channel header does where it fits (R182). -/
theorem msadpcmHdr_mono {s : State} (hch : s.latched.channels = 1) (hn : s.outCount.toNat + 2 ≤ s.reqN.toNat) :
    msadpcmHdr .doc s = .done () (setBlockPos 7 (addCount 2
      (setOut (s.outCount.toNat + 1) (wireField s 5) (setOut s.outCount.toNat (wireField s 3)
        (setMs .c0 (headerChan s.ms.ch0 (wireByte s 0) (wireField s 1) (wireField s 3) (wireField s 5))
          (afterReads 7 s)))))) := by
  have hlt := s.reqN.isLt
  have hch2 : s.latched.channels ≠ 2 := by rw [hch]; decide
  have hc : channelList s = [.c0] := by rw [channelList, if_neg hch2]
  have hfit : ¬s.outCount.toNat + 2 * s.latched.channels.toNat > s.reqN.toNat := by
    rw [hch]
    show ¬s.outCount.toNat + 2 * 1 > s.reqN.toNat
    omega
  let t := loadHeader .doc s
  have ht : t = setMs .c0 (headerChan s.ms.ch0 (wireByte s 0) (wireField s 1) (wireField s 3) (wireField s 5))
      (afterReads 7 s) := loadHeader_mono hch2
  have hn0 : t.outCount = s.outCount := by rw [ht]; rfl
  have hr0 : t.reqN = s.reqN := by rw [ht]; rfl
  have h02 : t.ms.ch0.sample2 = wireField s 3 := by rw [ht]; rfl
  have h01 : t.ms.ch0.sample1 = wireField s 5 := by rw [ht]; rfl
  have e1 := emitRegs_one MsChan.sample2 (t := t) (by rw [hn0, hr0]; omega)
  have e2 : (s.outCount + 1).toNat = s.outCount.toNat + 1 := by
    rw [BitVec.toNat_add]
    exact Nat.mod_eq_of_lt (by show s.outCount.toNat + 1 < 2 ^ 32; omega)
  rw [hn0, h02] at e1
  let u := addCount 1 (setOut s.outCount.toNat (wireField s 3) t)
  have hu : u.outCount.toNat = s.outCount.toNat + 1 := by
    show (t.outCount + 1).toNat = _
    rw [hn0, e2]
  have e3 := emitRegs_one MsChan.sample1 (t := u) (by
    show u.outCount.toNat + 1 ≤ t.reqN.toNat
    rw [hu, hr0]
    omega)
  have h01' : u.ms.ch0.sample1 = wireField s 5 := h01
  rw [hu, h01'] at e3
  rw [msadpcmHdr, if_neg hfit, hc]
  show ((emitRegs MsChan.sample2 [.c0] t).andThen _) = _
  rw [e1, andThen_done]
  show ((emitRegs MsChan.sample1 [.c0] u).andThen _) = _
  rw [e3, andThen_done, hch, ← ht]
  show Res.done () (setBlockPos 7 (addCount 1 (addCount 1 (setOut (s.outCount.toNat + 1) (wireField s 5)
    (setOut s.outCount.toNat (wireField s 3) t))))) = _
  rw [addCount_addCount]
  rfl

end Sys2Proof.Machine
end

