-- ==== Sys2Proof/Laws/Closure.lean ====
section
/-! SUPPORT. Every micro-operation is a chain of a few updates, so a property that those updates keep holds of the state
it leaves, whether it completes or faults. -/

namespace Sys2Proof.Machine

/-- The updates an IMA-family operation is made of, each keeping `P`; output elements are written from index `lo` on
and below `N`. -/
structure ImaClosed (lo : Nat) (P : State → Prop) : Prop where
  read : ∀ n t, P t → P (afterReads n t)
  ima : ∀ c v t, P t → P (setIma c v t)
  out : ∀ i v t, lo ≤ i → i < t.reqN.toNat → P t → P (setOut i v t)
  count : ∀ k t, P t → P (addCount k t)
  fault : ∀ code t, P t → P (raise code t)

/-- The updates of an MSADPCM header before its samples are written. -/
structure LoadClosed (P : State → Prop) : Prop where
  read : ∀ n t, P t → P (afterReads n t)
  ms : ∀ c v t, P t → P (setMs c v t)

/-- The updates an MSADPCM operation is made of. -/
structure MsClosed (lo : Nat) (P : State → Prop) : Prop extends LoadClosed P where
  out : ∀ i v t, lo ≤ i → i < t.reqN.toNat → P t → P (setOut i v t)
  block : ∀ v t, P t → P (setBlockPos v t)
  count : ∀ k t, P t → P (addCount k t)
  fault : ∀ code t, P t → P (raise code t)

variable {lo : Nat} {P : State → Prop} {s : State}

theorem emitIma_state (h : ImaClosed lo P) (hs : P s) {i : Nat} (hi : lo ≤ i) (code : Code) (c : Chan) :
    P (emitIma i code c s).state := by
  cases hk : stepIndexOk (s.ima.get c)
  · rw [emitIma_fault hk]
    exact h.fault _ _ hs
  · rw [emitIma, decodeIma_ok hk, andThen_done]
    have h1 := h.ima c (imaNext code (s.ima.get c)) s hs
    by_cases hn : i < (setIma c (imaNext code (s.ima.get c)) s).reqN.toNat
    · rw [outWrite_done hn]
      exact h.out _ _ _ hi hn h1
    · rw [outWrite_raised (by omega)]
      exact h.fault _ _ h1

theorem imaByte_state (h : ImaClosed s.outCount.toNat P) (hs : P s) : P (imaByte s).state := by
  rw [imaByte, srcReadByte_fst, srcReadByte_snd]
  refine andThen_state (emitIma_state h (h.read _ _ hs) (Nat.le_refl _) _ _) fun _ t ht => ?_
  exact andThen_state (emitIma_state h ht (Nat.le_succ _) _ _) fun _ u hu => h.count _ _ hu

theorem msimaHdr_state (h : ImaClosed lo P) (hb : ∀ v t, P t → P (setBlockPos v t)) (hs : P s) : P (msimaHdr s) := by
  rw [msimaHdr_eq]
  exact hb _ _ (h.ima _ _ _ (h.read _ _ hs))

theorem msimaByte_state (h : ImaClosed s.outCount.toNat P) (hb : ∀ v t, P t → P (setBlockPos v t)) (hs : P s) :
    P (msimaByte s).state := by
  rw [msimaByte, srcReadByte_fst, srcReadByte_snd]
  refine andThen_state (emitIma_state h (hb _ _ (h.read _ _ hs)) (Nat.le_refl _) _ _) fun _ t ht => ?_
  exact andThen_state (emitIma_state h ht (Nat.le_succ _) _ _) fun _ u hu => h.count _ _ hu

theorem emitNibbles_state (h : ImaClosed lo P) (c : Chan) (w : U32) {base : Nat} (hb : lo ≤ base) (ks : List Nat)
    (hs : P s) : P (emitNibbles c w base ks s).state := by
  induction ks generalizing s with
  | nil => exact hs
  | cons k ks ih => exact andThen_state (emitIma_state h hs (by omega) _ _) fun _ t ht => ih ht

theorem groupChannel_state (h : ImaClosed lo P) (c : Chan) {base : Nat} (hb : lo ≤ base) (hs : P s) :
    P (groupChannel c base s).state := by
  rw [groupChannel, srcRead32_snd]
  exact emitNibbles_state h c _ (by omega) _ (h.read _ _ hs)

theorem msimaGroup_state (h : ImaClosed s.outCount.toNat P) (hs : P s) : P (msimaGroup s).state := by
  refine andThen_state (groupChannel_state h .c0 (Nat.le_refl _) hs) fun _ t ht => ?_
  exact andThen_state (groupChannel_state h .c1 (Nat.le_refl _) ht) fun _ u hu => h.count _ _ hu

theorem emitMs_state (h : MsClosed lo P) (hs : P s) {i : Nat} (hi : lo ≤ i) (bits : DeltaBits) (c : Chan)
    (code : Code) : P (emitMs bits i c code s).state := by
  by_cases hk : bits = .bits32 ∧ msOverflow code (s.ms.get c) = true
  · obtain ⟨rfl, hk⟩ := hk
    rw [emitMs_fault hk]
    exact h.fault _ _ hs
  · have hk' : bits = .bits32 → msOverflow code (s.ms.get c) = false := fun hb =>
      Bool.eq_false_iff.2 fun ho => hk ⟨hb, ho⟩
    rw [emitMs, decodeMs_ok hk', andThen_done]
    have h1 := h.ms c (msNext bits code (s.ms.get c)) s hs
    by_cases hn : i < (setMs c (msNext bits code (s.ms.get c)) s).reqN.toNat
    · rw [outWrite_done hn]
      exact h.out _ _ _ hi hn h1
    · rw [outWrite_raised (by omega)]
      exact h.fault _ _ h1

theorem msadpcmByte_state (h : MsClosed s.outCount.toNat P) (bits : DeltaBits) (hs : P s) :
    P (msadpcmByte bits s).state := by
  rw [msadpcmByte, srcReadByte_fst, srcReadByte_snd]
  refine andThen_state (emitMs_state h (h.block _ _ (h.read _ _ hs)) (Nat.le_refl _) _ _ _) fun _ t ht => ?_
  exact andThen_state (emitMs_state h ht (Nat.le_succ _) _ _ _) fun _ u hu => h.count _ _ hu

theorem readPreds_state (h : LoadClosed P) (cs : List Chan) (hs : P s) : P (readPreds cs s) := by
  induction cs generalizing s with
  | nil => exact hs
  | cons c cs ih =>
    rw [readPreds, srcReadByte_snd]
    exact ih (h.ms _ _ _ (h.read _ _ hs))

theorem readFields_state (h : LoadClosed P) (cs : List Chan) (acc : PerChan Sample) (hs : P s) :
    P (readFields cs acc s).2 := by
  induction cs generalizing s acc with
  | nil => exact hs
  | cons c cs ih =>
    rw [readFields, srcRead16_snd]
    exact ih _ (h.read _ _ hs)

theorem storeDeltas_state (h : LoadClosed P) (cs : List Chan) (d : PerChan Sample) (hs : P s) :
    P (storeDeltas cs d s) := by
  induction cs generalizing s with
  | nil => exact hs
  | cons c cs ih => exact ih (h.ms _ _ _ hs)

theorem storeSamples_state (h : LoadClosed P) (o : SampleOrder) (cs : List Chan) (a b : PerChan Sample) (hs : P s) :
    P (storeSamples o cs a b s) := by
  induction cs generalizing s with
  | nil => exact hs
  | cons c cs ih => exact ih (h.ms _ _ _ hs)

theorem loadHeader_state (h : LoadClosed P) (o : SampleOrder) (hs : P s) : P (loadHeader o s) :=
  storeSamples_state h _ _ _ _ (readFields_state h _ _ (readFields_state h _ _ (storeDeltas_state h _ _
    (readFields_state h _ _ (readPreds_state h _ hs)))))

theorem emitRegs_state (h : MsClosed lo P) (field : MsChan → Sample) (cs : List Chan) (f : Unit → State → Res Unit)
    (hf : ∀ t, P t → lo ≤ t.outCount.toNat → P (f () t).state) (hs : P s) (hlo : lo ≤ s.outCount.toNat) :
    P ((emitRegs field cs s).andThen f).state := by
  induction cs generalizing s with
  | nil => exact hf _ hs hlo
  | cons c cs ih =>
    by_cases hn : s.outCount.toNat < s.reqN.toNat
    · rw [emitRegs, outWrite_done hn, andThen_done]
      refine ih (h.count _ _ (h.out _ _ _ hlo hn hs)) ?_
      have hlt := s.reqN.isLt
      have e : (s.outCount + 1).toNat = s.outCount.toNat + 1 := by
        rw [BitVec.toNat_add]
        exact Nat.mod_eq_of_lt (by show s.outCount.toNat + 1 < 2 ^ 32; omega)
      show lo ≤ (s.outCount + 1).toNat
      omega
    · rw [emitRegs, outWrite_raised (by omega)]
      exact h.fault _ _ hs

theorem loadHeader_outCount (o : SampleOrder) (s : State) : (loadHeader o s).outCount = s.outCount :=
  loadHeader_state (P := fun t => t.outCount = s.outCount) ⟨fun _ _ h => h, fun _ _ _ h => h⟩ o rfl

theorem msadpcmHdr_state (h : MsClosed s.outCount.toNat P) (o : SampleOrder) (hs : P s) :
    P (msadpcmHdr o s).state := by
  rw [msadpcmHdr]
  split
  · exact h.fault _ _ hs
  · refine emitRegs_state h _ _ _ (fun t ht hlo => ?_) (loadHeader_state h.toLoadClosed o hs) (by
      rw [loadHeader_outCount])
    exact emitRegs_state h _ _ _ (fun u hu _ => h.block _ _ hu) ht hlo

end Sys2Proof.Machine
end

