-- ==== Sys2Proof/Laws/Decode.lean ====
section
/-! SUPPORT. The bit fields as numbers, and which words the decoder takes. -/

namespace Sys2Proof

theorem cmdZero_toNat (w : U32) : (cmdZero w).toNat = w.toNat / 16 := by
  have := w.isLt
  simp only [cmdZero, BitVec.extractLsb'_toNat, Nat.shiftRight_eq_div_pow]
  omega

theorem cmdOp_toNat (w : U32) : (cmdOp w).toNat = w.toNat % 16 := by
  simp [cmdOp, BitVec.extractLsb'_toNat]

theorem cmdZero_eq_zero (w : U32) : cmdZero w = 0 ↔ w.toNat / 16 = 0 := by
  rw [← cmdZero_toNat, ← BitVec.toNat_inj]
  rfl

theorem le16_toNat (b0 b1 : Byte) : (le16 b0 b1).toNat = b0.toNat + 256 * b1.toNat := by
  have := b0.isLt
  simp only [le16, BitVec.toNat_append]
  rw [← Nat.shiftLeft_add_eq_or_of_lt (by omega), Nat.shiftLeft_eq]
  omega

/-- A word with `ZERO` not 0 or `OP` out of 1 to 7 is rejected (R72). -/
theorem decodeCmd_rejected {w : U32} (h : ¬(w.toNat / 16 = 0 ∧ 1 ≤ w.toNat % 16 ∧ w.toNat % 16 ≤ 7)) :
    ∃ why, decode (.cmd w) = .rejected why := by
  simp only [decode, decodeCmd, ne_eq, cmdZero_eq_zero, cmdOp_toNat]
  split
  · exact ⟨_, rfl⟩
  · split <;> first | exact ⟨_, rfl⟩ | (exfalso; omega)

/-- A word in 1 to 7 is one of the seven command words of R71. -/
theorem cmd_word_cases {w : U32} (h : w.toNat / 16 = 0 ∧ 1 ≤ w.toNat % 16 ∧ w.toNat % 16 ≤ 7) :
    w = 1 ∨ w = 2 ∨ w = 3 ∨ w = 4 ∨ w = 5 ∨ w = 6 ∨ w = 7 := by
  have h7 : w.toNat = 1 ∨ w.toNat = 2 ∨ w.toNat = 3 ∨ w.toNat = 4 ∨ w.toNat = 5 ∨ w.toNat = 6 ∨ w.toNat = 7 := by
    omega
  simpa [← BitVec.toNat_inj] using h7

/-- What a command word can decode to. -/
theorem cmd_instr_cases {w : U32} {i : Instr} (h : decode (.cmd w) = .instr i) :
    i = .configure ∨ i = .read ∨ i = .rewind ∨ i = .queryEod ∨ i = .queryStereo ∨ i = .queryRate ∨ i = .release := by
  simp only [decode, decodeCmd] at h
  split at h
  · cases h
  · split at h <;> cases h <;> simp

end Sys2Proof
end

