-- ==== Sys2Proof/Laws/Flags.lean ====
section
/-! SUPPORT. `STATUS` as a number, from its fields (10_state.md R23), and the end of data as a proposition. -/

namespace Sys2Proof.Machine

theorem append_toNat {m n : Nat} (x : BitVec m) (y : BitVec n) : (x ++ y).toNat = x.toNat * 2 ^ n + y.toNat := by
  rw [BitVec.toNat_append, ← Nat.shiftLeft_add_eq_or_of_lt y.isLt, Nat.shiftLeft_eq]

theorem statusWord_toNat (s : State) :
    (statusWord s).toNat = 256 * (statusFaultCode s).toNat + 16 * (statusVariant s).toNat +
      8 * (statusStereo s).toNat + 4 * (statusEod s).toNat + 2 * (statusFlt s).toNat + (statusCfg s).toNat := by
  have h : ∀ b : Bool, (BitVec.ofBool b).toNat = b.toNat := by decide
  simp only [statusWord, append_toNat, h]
  have h0 : (0 : BitVec 16).toNat = 0 := rfl
  rw [h0]
  omega

theorem endOfData_iff (s : State) : endOfData s = true ↔
    (Config.eosMode = .atEnd ∧ s.src.len ≤ s.pos) ∨ (Config.eosMode = .afterShortRead ∧ s.eosFlag = true) ∨
      s.latched.endPos ≤ s.pos := by
  unfold endOfData endOfDataIn exhaustedIn
  cases Config.eosMode <;> simp

end Sys2Proof.Machine
end

