-- ==== Sys2Proof/Laws/PerInstr.lean ====
section
/-! SUPPORT. One lemma a constructor: what the encoder gives for an instruction is a legal encoding (30_encoding.md R70,
R72, R82, R84). -/

namespace Sys2Proof.Laws.EncodingLegal

/-- The encoding of the instruction is legal. -/
def Statement (i : Instr) : Prop := (encode i).wellFormed = true

theorem configure : Statement .configure := rfl

theorem read : Statement .read := rfl

theorem rewind : Statement .rewind := rfl

theorem queryEod : Statement .queryEod := rfl

theorem queryStereo : Statement .queryStereo := rfl

theorem queryRate : Statement .queryRate := rfl

theorem release : Statement .release := rfl

theorem imaByte : Statement .imaByte := rfl

theorem msimaHdr : Statement .msimaHdr := rfl

theorem msimaByte : Statement .msimaByte := rfl

theorem msimaGroup : Statement .msimaGroup := rfl

theorem msadpcmHdr : Statement .msadpcmHdr := rfl

theorem msadpcmByte : Statement .msadpcmByte := rfl

theorem decodeIma (code : Code) (c : Chan) : Statement (.decodeIma code c) := rfl

theorem decodeMs (c : Chan) (code : Code) : Statement (.decodeMs c code) := rfl

end Sys2Proof.Laws.EncodingLegal
end

