-- ==== Sys2Proof/Laws/Step.lean ====
section
/-! SUPPORT. Everything one step can do, said once: in `BUSY` the end of the READ or one micro-operation, else one
action of the host. -/

namespace Sys2Proof.Machine

theorem next_inj {s t : State} (h : (.next s : Host.Outcome State Fault Refusal) = .next t) : s = t := by
  cases h
  rfl

/-- An iteration of READ_LOOP that does not exit is the selected micro-operation (R105). -/
theorem step_of_unit {s : State} {i : Instr} (hm : s.mode = .busy) (hl : loopExit s = false)
    (hd : decode (unitSelector s) = .instr i) : step s = exec i s := by
  simp only [step, hm, if_true, readIteration, hl, hd, Bool.false_eq_true, if_false]

/-- The end of a READ (R106). -/
theorem step_of_exit {s : State} (hm : s.mode = .busy) (hl : loopExit s = true) : step s = .next (finishRead s) := by
  simp only [step, hm, if_true, readIteration, hl]

/-- A step that ends in a next state while a READ runs. -/
theorem step_busy_cases {s t : State} (hm : s.mode = .busy) (h : step s = .next t) :
    (loopExit s = true ∧ t = finishRead s) ∨ (loopExit s = false ∧
      ((s.latched.variant = .ima ∧ t = (imaByte s).state) ∨
      (s.latched.variant = .msima1 ∧ s.blockPos.ch0 = s.latched.blockAlign ∧ t = msimaHdr s) ∨
      (s.latched.variant = .msima1 ∧ s.blockPos.ch0 ≠ s.latched.blockAlign ∧ t = (msimaByte s).state) ∨
      (s.latched.variant = .msima2 ∧ t = (msimaGroup s).state) ∨
      (s.latched.variant = .msadpcm ∧ s.blockPos.ch0 = s.latched.blockAlign ∧ t = (msadpcmHdr .doc s).state) ∨
      (s.latched.variant = .msadpcm ∧ s.blockPos.ch0 ≠ s.latched.blockAlign ∧
        t = (msadpcmByte Config.msDeltaBits s).state))) := by
  simp only [step, hm, if_true, readIteration] at h
  split at h
  · exact .inl ⟨‹_›, (next_inj h).symm⟩
  · refine .inr ⟨Bool.eq_false_iff.2 ‹_›, ?_⟩
    revert h
    cases hv : s.latched.variant <;> cases hb : (s.blockPos.ch0 == s.latched.blockAlign) <;>
      simp only [unitSelector, decode, decodeUnit, hv, hb] <;> intro h
    all_goals cases h
    all_goals simp at hb
    all_goals simp [hb]
    all_goals rfl

/-- A step that ends in a next state while no READ runs: the host's next action. -/
theorem step_host_cases {s t : State} (hm : s.mode ≠ .busy) (h : step s = .next t) :
    (s.host = [] ∧ t = s) ∨
    (∃ r v rest, s.host = .writeArg r v :: rest ∧ t = setArg r v { s with host := rest }) ∨
    (∃ w rest i, s.host = .writeCmd w :: rest ∧ decode (.cmd w) = .instr i ∧
      exec i { s with host := rest, cmd := w } = .next t) ∨
    (∃ w rest why, s.host = .writeCmd w :: rest ∧ decode (.cmd w) = .rejected why ∧
      acceptIllegal { s with host := rest, cmd := w } = .next t) ∨
    (∃ before more rest, s.host = .bindSource before more :: rest ∧
      bindSource before more { s with host := rest } = .next t) ∨
    (∃ samples rest, s.host = .bindOut samples :: rest ∧ t = bindOut samples { s with host := rest }) ∨
    (∃ rest, s.host = .hardwareReset :: rest ∧ t = hardwareReset { s with host := rest }) := by
  simp only [step, hm, if_false, hostTurn] at h
  split at h
  · exact .inl ⟨‹_›, (next_inj h).symm⟩
  · rename_i a rest hh
    refine .inr ?_
    cases a with
    | writeArg r v => exact .inl ⟨r, v, rest, hh, (next_inj h).symm⟩
    | writeCmd w =>
      simp only [hostAction, writeCmd] at h
      split at h
      · exact .inr (.inl ⟨w, rest, _, hh, ‹_›, h⟩)
      · exact .inr (.inr (.inl ⟨w, rest, _, hh, ‹_›, h⟩))
    | bindSource a b => exact .inr (.inr (.inr (.inl ⟨a, b, rest, hh, h⟩)))
    | bindOut l => exact .inr (.inr (.inr (.inr (.inl ⟨l, rest, hh, (next_inj h).symm⟩))))
    | hardwareReset => exact .inr (.inr (.inr (.inr (.inr ⟨rest, hh, (next_inj h).symm⟩))))

/-- What a command other than CONFIGURE can do (R100). -/
theorem acceptWhenReady_cases {body : State → State} {s t : State} (h : acceptWhenReady body s = .next t) :
    (s.mode = .faulted ∧ t = s) ∨ (s.mode = .unconfigured ∧ t = raise .notConfigured s) ∨
      (s.mode = .ready ∧ t = body s) := by
  unfold acceptWhenReady at h
  split at h <;> cases h <;> simp [*]

/-- What CONFIGURE can do (R100). -/
theorem acceptConfigure_cases {body : State → State} {s t : State} (h : acceptConfigure body s = .next t) :
    (s.mode = .faulted ∧ t = s) ∨ (s.mode = .ready ∧ t = raise .alreadyConfigured s) ∨
      (s.mode = .unconfigured ∧ t = body s) := by
  unfold acceptConfigure at h
  split at h <;> cases h <;> simp [*]

/-- What an illegal command word can do (R72, R100). -/
theorem acceptIllegal_cases {s t : State} (h : acceptIllegal s = .next t) :
    (s.mode = .faulted ∧ t = s) ∨ ((s.mode = .unconfigured ∨ s.mode = .ready) ∧ t = raise .illegalCommand s) := by
  unfold acceptIllegal at h
  split at h <;> cases h <;> simp [*]

end Sys2Proof.Machine
end

