-- ==== Sys2Proof/Tests/Slice0.lean ====
section
/-! SUPPORT. Tests with results from the spec (95_test_vectors.md, named by their vectors), and for every statement with
hypotheses a concrete input that meets them together. -/

namespace Sys2Proof.Tests

open Sys2Proof.Machine

/-! ### Ill-formed encodings -/

theorem test_wf_zero_field : (Encoding.cmd 0x00000011).wellFormed = false ∧
    decode (.cmd 0x00000011) = .rejected .zeroFieldNotZero ∧ (Encoding.cmd 0x80000001).wellFormed = false := by decide

theorem test_wf_reserved_op : (Encoding.cmd 0x00000000).wellFormed = false ∧ (Encoding.cmd 0x00000008).wellFormed = false ∧
    decode (.cmd 0x00000008) = .rejected (.reservedOp 8) ∧ decode (.cmd 0x0000000F) = .rejected (.reservedOp 15) := by
  decide

theorem test_wf_no_variant : (Encoding.unit .unset true).wellFormed = false ∧
    decode (.unit .unset true) = .rejected .noVariant := by decide

/-! ### Decoding: words written out from 30_encoding.md R71, R74, R75, R78, R82 -/

theorem test_decode_commands : decode (.cmd 0b00000000000000000000000000000001) = .instr .configure ∧
    decode (.cmd 0b00000000000000000000000000000010) = .instr .read ∧
    decode (.cmd 0b00000000000000000000000000000011) = .instr .rewind ∧
    decode (.cmd 0b00000000000000000000000000000100) = .instr .queryEod ∧
    decode (.cmd 0b00000000000000000000000000000101) = .instr .queryStereo ∧
    decode (.cmd 0b00000000000000000000000000000110) = .instr .queryRate ∧
    decode (.cmd 0b00000000000000000000000000000111) = .instr .release := by decide

theorem test_decode_units : decode (.unit .ima false) = .instr .imaByte ∧ decode (.unit .ima true) = .instr .imaByte ∧
    decode (.unit .msima1 true) = .instr .msimaHdr ∧ decode (.unit .msima1 false) = .instr .msimaByte ∧
    decode (.unit .msima2 true) = .instr .msimaGroup ∧ decode (.unit .msima2 false) = .instr .msimaGroup ∧
    decode (.unit .msadpcm true) = .instr .msadpcmHdr ∧ decode (.unit .msadpcm false) = .instr .msadpcmByte := by decide

theorem test_decode_codes : decode (.nibble .ima 0b1011 .c1) = .instr (.decodeIma 11 .c1) ∧ codeSign 0b1011 = true ∧
    codeMag 0b1011 = 3 ∧ sext4 0b1011 = -5 ∧ decode (.nibble .ms 0b0111 .c0) = .instr (.decodeMs .c0 7) ∧
    codeSign 0b0111 = false ∧ sext4 0b0111 = 7 := by decide

/-- V-G: `78 56 34 12` is the word 0x12345678, with codes 1 to 8, and the byte 0x4C has codes 4 and 0xC. -/
theorem test_decode_nibbles : le32 0x78 0x56 0x34 0x12 = 0x12345678 ∧
    groupCodes 0x12345678 = [1, 2, 3, 4, 5, 6, 7, 8] ∧ hiNibble 0x4C = 4 ∧ loNibble 0x4C = 0xC ∧
    (le16 0x38 0xFF).toInt = -200 := by decide

theorem test_table_word : decodeTableWord 32 0x5 = some .queryStereo ∧ decodeTableWord 32 0x15 = none := by decide

/-! ### Small states -/

/-- A decoder just configured over these bytes. -/
def readyOn (v : Variant) (f c b : U32) (bytes : List Byte) : State :=
  { State.reset with
    mode := .ready
    latched := ⟨f, c, b, 22050, 0, bytes.length, true, v⟩
    blockPos := ⟨b, b⟩
    src := ⟨cellsFrom 0 bytes, bytes.length, 0⟩ }

/-- The same decoder in a READ of `n` samples. -/
def busyOn (n : U32) (v : Variant) (f c b : U32) (bytes : List Byte) : State :=
  { readyOn v f c b bytes with mode := .busy, reqN := n }

/-- Right after reset, with this host action pending. -/
def hostDoes (a : HostAction) (s : State) : State := { s with host := [a] }

/-- The argument registers with these CONFIGURE arguments. -/
def cfgArgs (f c b z : U32) : ArgRegs := ⟨f, c, b, 22050, z, 1, 0⟩

/-! ### Commands -/

/-- P5's CONFIGURE. -/
theorem test_configure : ∃ t, exec .configure { State.reset with args := cfgArgs 3 2 16 16 } = .next t ∧
    t.mode = .ready ∧ t.latched.variant = .msadpcm ∧ t.blockPos = ⟨16, 16⟩ ∧ t.latched.endPos = 16 ∧
    t.latched.own = true := ⟨_, rfl, by decide⟩

/-- MSADPCM stereo with `BLOCK_ALIGN` 13 < 14: code 4 (R101, R210). -/
theorem test_configure_too_small : ∃ t, exec .configure { State.reset with args := cfgArgs 3 2 13 16 } = .next t ∧
    t.mode = .faulted ∧ t.faultCode = 4 ∧ t.latched = Latched.zero := ⟨_, rfl, by decide⟩

theorem test_read : ∃ t, exec .read { readyOn .ima 1 1 0 [0x17] with args := ⟨1, 1, 0, 0, 0, 0, 6⟩ } = .next t ∧
    t.mode = .busy ∧ t.reqN = 6 ∧ t.outCount = 0 := ⟨_, rfl, by decide⟩

/-- P10: READ 3. -/
theorem test_read_odd : ∃ t, exec .read { readyOn .ima 1 1 0 [0x17] with args := ⟨1, 1, 0, 0, 0, 0, 3⟩ } = .next t ∧
    t.faultCode = 8 ∧ t.mode = .faulted ∧ t.pos = 0 := ⟨_, rfl, by decide⟩

theorem test_rewind : ∃ t, exec .rewind { readyOn .msima1 2 1 6 [1, 2] with pos := 2, blockPos := ⟨5, 6⟩ } = .next t ∧
    t.pos = 0 ∧ t.blockPos = ⟨6, 6⟩ ∧ t.result = 1 := ⟨_, rfl, by decide⟩

/-- At `END`, under either meaning of exhaustion. -/
theorem test_queryEod : ∃ t, exec .queryEod { readyOn .ima 1 1 0 [1] with pos := 1 } = .next t ∧ t.result = 1 := by
  refine ⟨_, rfl, ?_⟩
  show bit (endOfDataIn Config.eosMode { readyOn .ima 1 1 0 [1] with pos := 1 }) = 1
  cases Config.eosMode <;> decide

theorem test_queryStereo : ∃ t, exec .queryStereo (readyOn .ima 1 2 0 []) = .next t ∧ t.result = 1 := ⟨_, rfl, by decide⟩

theorem test_queryRate : ∃ t, exec .queryRate (readyOn .ima 1 2 0 []) = .next t ∧ t.result = 22050 :=
  ⟨_, rfl, by decide⟩

theorem test_release : ∃ t, exec .release (readyOn .ima 1 2 0 [1]) = .next t ∧ t.events = [.sourceReleased] ∧
    t.mode = .unconfigured ∧ t.src.len = 1 := ⟨_, rfl, by decide⟩

/-! ### Micro-operations and primitives -/

/-- V-IMAB, row 1. -/
theorem test_imaByte_mono : ∃ t, exec .imaByte (busyOn 2 .ima 1 1 0 [0x17]) = .next t ∧
    (outAt t 0).toInt = 2 ∧ (outAt t 1).toInt = 15 ∧ t.ima.ch0 = ⟨15, 8⟩ ∧ t.outCount = 2 := ⟨_, rfl, by decide⟩

/-- V-IMAB, row 3. -/
theorem test_imaByte_stereo : ∃ t, exec .imaByte (busyOn 2 .ima 1 2 0 [0x4C]) = .next t ∧
    (outAt t 0).toInt = 7 ∧ (outAt t 1).toInt = -7 ∧ t.ima.ch1.stepIndex = 2 := ⟨_, rfl, by decide⟩

/-- V-MSH, rows 2 and 5. -/
theorem test_msimaHdr : (∃ t, exec .msimaHdr (busyOn 2 .msima1 2 1 6 [0x38, 0xFF, 0, 0]) = .next t ∧
      t.ima.ch0.last.toInt = -200 ∧ t.ima.ch0.stepIndex = 0 ∧ t.blockPos.ch0 = 4 ∧ t.out = []) ∧
    ∃ t, exec .msimaHdr (busyOn 2 .msima1 2 1 6 [0, 0, 0xFF, 0xFF]) = .next t ∧ t.ima.ch0.stepIndex.toInt = -1 :=
  ⟨⟨_, rfl, by decide⟩, ⟨_, rfl, by decide⟩⟩

/-- V-MSB, row 1. -/
theorem test_msimaByte : ∃ t, exec .msimaByte { busyOn 2 .msima1 2 1 6 [0x21] with
      ima := ⟨⟨1000, 10⟩, ⟨0, 0⟩⟩, blockPos := ⟨4, 6⟩ } = .next t ∧
    (outAt t 0).toInt = 1007 ∧ (outAt t 1).toInt = 1017 ∧ t.ima.ch0 = ⟨1017, 8⟩ ∧ t.blockPos.ch0 = 5 :=
  ⟨_, rfl, by decide⟩

/-- V-MSB, row 5. -/
theorem test_msimaByte_fault : ∃ t, exec .msimaByte { busyOn 2 .msima1 2 1 6 [0] with
      ima := ⟨⟨0, 100⟩, ⟨0, 0⟩⟩, blockPos := ⟨4, 6⟩ } = .next t ∧
    t.faultCode = 9 ∧ t.blockPos.ch0 = 5 ∧ t.pos = 1 ∧ t.out = [] := ⟨_, rfl, by decide⟩

/-- V-G, row 1: the first and last pairs. -/
theorem test_msimaGroup : ∃ t, exec .msimaGroup
      (busyOn 16 .msima2 2 2 256 [0x78, 0x56, 0x34, 0x12, 0x88, 0x88, 0, 0xF0]) = .next t ∧
    [0, 1, 2, 3, 14, 15].map (fun i => (outAt t i).toInt) = [2, -13, 6, -11, 89, -13] ∧
    t.ima.ch0.stepIndex = 19 ∧ t.pos = 8 := ⟨_, rfl, by decide⟩

/-- V-AH, row 1. -/
theorem test_msadpcmHdr_stereo : ∃ t, exec .msadpcmHdr (busyOn 8 .msadpcm 3 2 16
      [0x01, 0x09, 0x64, 0x00, 0xCE, 0xFF, 0xE8, 0x03, 0x30, 0xF8, 0xDC, 0x05, 0x18, 0xFC]) = .next t ∧
    t.ms.ch0.pred = 1 ∧ t.ms.ch1.pred = 6 ∧ t.ms.ch1.delta.toInt = -50 ∧ t.ms.ch1.coeff2.toInt = -232 ∧
    [0, 1, 2, 3].map (fun i => (outAt t i).toInt) = [1000, -2000, 1500, -1000] ∧ t.blockPos.ch0 = 14 :=
  ⟨_, rfl, by decide⟩

/-- V-AH, row 3. -/
theorem test_msadpcmHdr_mono : ∃ t, exec .msadpcmHdr (busyOn 4 .msadpcm 3 1 9 [0x00, 0xD8, 0xFF, 0x0A, 0x00, 0x14, 0x00])
      = .next t ∧ t.ms.ch0.delta.toInt = -40 ∧ t.ms.ch0.sample2 = 10 ∧ t.ms.ch0.sample1 = 20 ∧ t.outCount = 2 :=
  ⟨_, rfl, by decide⟩

/-- The registers of P5 after its header. -/
def p5Regs : PerChan MsChan :=
  ⟨⟨1, 512, s16 (-256), 100, 1500, 1000⟩, ⟨6, 392, s16 (-232), s32 (-50), s16 (-1000), s16 (-2000)⟩⟩

/-- P5: the byte 0x3C after its header, under either width of the delta. -/
theorem test_msadpcmByte : ∃ t, exec .msadpcmByte { busyOn 8 .msadpcm 3 2 16 [0x3C] with
      ms := p5Regs, blockPos := ⟨14, 16⟩ } = .next t ∧
    (outAt t 0).toInt = 2300 ∧ (outAt t 1).toInt = 481 ∧ t.blockPos.ch0 = 15 := by
  refine ⟨_, rfl, ?_⟩
  generalize Config.msDeltaBits = bits
  cases bits <;> decide

/-- V-IMA-4, row 1, and V-IMA-3, code C from -32768. -/
theorem test_decodeIma : (∃ t, exec (.decodeIma 5 .c0) { State.reset with ima := ⟨⟨100, 10⟩, ⟨0, 0⟩⟩ } = .next t ∧
      t.ima.ch0 = ⟨126, 14⟩) ∧
    ∃ t, exec (.decodeIma 0xC .c1) { State.reset with ima := ⟨⟨0, 0⟩, ⟨s32 (-32768), 88⟩⟩ } = .next t ∧
      t.ima.ch1.last.toInt = -32768 ∧ t.ima.ch1.stepIndex = 88 := ⟨⟨_, rfl, by decide⟩, ⟨_, rfl, by decide⟩⟩

/-- V-IMA-5, row 3. -/
theorem test_decodeIma_fault : ∃ t, exec (.decodeIma 3 .c0) { State.reset with ima := ⟨⟨5, 100⟩, ⟨0, 0⟩⟩ } = .next t ∧
    t.faultCode = 9 ∧ t.ima.ch0 = ⟨5, 100⟩ := ⟨_, rfl, by decide⟩

/-- V-MS-3, row 1, under either width of the delta. -/
theorem test_decodeMs : ∃ t, exec (.decodeMs .c0 3) { State.reset with
      ms := ⟨⟨1, 512, s16 (-256), 100, 1000, 500⟩, MsChan.zero⟩ } = .next t ∧
    t.ms.ch0 = ⟨1, 512, s16 (-256), 89, 1800, 1000⟩ := by
  refine ⟨_, rfl, ?_⟩
  generalize Config.msDeltaBits = bits
  cases bits <;> decide

/-- V-MS-4, row 3, for both widths, and V-MS-5, row 2. -/
theorem test_decodeMs_widths :
    (msNext .bits16 7 ⟨2, 0, 0, 32767, 0, 0⟩).delta = 13053 ∧ (msNext .bits32 7 ⟨2, 0, 0, 32767, 0, 0⟩).delta = 78589 ∧
    msOverflow 8 ⟨0, 256, 0, 2796202, 0, 0⟩ = false ∧ msOverflow 8 ⟨0, 256, 0, 2796203, 0, 0⟩ = true := by decide

/-! ### Faults and status -/

/-- P13: READ before CONFIGURE gives STATUS 0x0502, and the core stays so. -/
theorem test_not_configured : ∃ t, step (hostDoes (.writeCmd 2) State.reset) = .next t ∧ t.mode = .faulted ∧
    (statusWord t).toNat = 0x0502 := by
  refine ⟨raise .notConfigured { State.reset with cmd := 2 }, rfl, rfl, ?_⟩
  rw [statusWord_toNat]
  rfl

/-- P1 after CONFIGURE and after its end: STATUS 0x11, then 0x15 (R23). -/
theorem test_status : (statusWord (readyOn .ima 1 1 0 [0x17])).toNat = 0x11 ∧
    (statusWord { readyOn .ima 1 1 0 [0x17] with pos := 1 }).toNat = 0x15 := by
  have h0 : ∀ m, endOfDataIn m (readyOn .ima 1 1 0 [0x17]) = false := by
    intro m
    cases m <;> decide
  have h1 : ∀ m, endOfDataIn m { readyOn .ima 1 1 0 [0x17] with pos := 1 } = true := by
    intro m
    cases m <;> decide
  rw [statusWord_toNat, statusWord_toNat, statusEod, statusEod, endOfData, endOfData, h0, h1]
  decide

/-- P13: the first step from reset with nothing pending keeps the core as it is. -/
theorem test_reset_idles : step State.reset = .next State.reset := rfl

/-- The step runs the word the host's list begins with. -/
theorem test_withFetchWord : step (State.reset.withFetchWord 32 1) = exec .configure { State.reset with cmd := 1 } := rfl

/-! ### Concrete inputs that meet the statements' hypotheses -/

/-- A legal configuration makes the state right after its CONFIGURE, and a READ's first state, legal. -/
theorem legal_busyOn {n : U32} {v : Variant} {f c b : U32} {bytes : List Byte} (hv : v ≠ .unset)
    (hl : LatchedOk ⟨f, c, b, 22050, 0, bytes.length, true, v⟩) (hn : n.toNat % requestUnit v = 0) :
    Legal (busyOn n v f c b bytes) := by
  have hi : hasInstance (busyOn n v f c b bytes) = true := by simp [hasInstance, busyOn, readyOn, hv]
  refine ⟨⟨cellsWf_cellsFrom _ _, cellsWf_nil, fun x hx => ?_, Nat.zero_le _⟩, ⟨⟨fun h => (by cases h), fun h =>
    absurd rfl h⟩, Nat.zero_le _⟩, ⟨fun _ => hi, fun h => (by cases h), fun _ => ⟨hl, Nat.le_refl _, Nat.zero_le _⟩,
    fun h => (by rw [hi] at h; cases h)⟩, fun _ => ⟨rfl, Nat.le_refl _, ?_⟩, ?_, ?_,
    ⟨fun _ => ⟨Nat.zero_le _, hn, Nat.zero_mod _⟩, fun h => absurd rfl h⟩⟩
  · have := (mem_cellsFrom hx).2
    show x.1 < bytes.length
    omega
  · obtain ⟨-, -, h⟩ := hl
    cases v
    · exact absurd rfl hv
    · exact rfl
    · exact h.2.2
    · exact rfl
    · exact h.2
  · have h : -32768 ≤ (0 : U32).toInt ∧ (0 : U32).toInt ≤ 32767 ∧ stepIndexOk ImaChan.zero = true := by decide
    intro c
    cases c <;> exact ⟨h.1, h.2.1, h.1, h.2.1, fun _ => h.2.2⟩
  · have h : -32768 ≤ (0 : U32).toInt ∧ (0 : U32).toInt ≤ 32767 := by decide
    intro c
    cases c <;> exact ⟨Nat.zero_le _, .inr ⟨rfl, rfl⟩, fun _ => h⟩

theorem legal_ima : Legal (busyOn 4 .ima 1 1 0 [0x17, 0x80, 0x3C]) :=
  legal_busyOn (by decide) ⟨.inl rfl, Nat.zero_le _, rfl⟩ rfl

theorem legal_msima1 : Legal (busyOn 4 .msima1 2 1 4 [1, 0, 2, 0]) :=
  legal_busyOn (by decide) ⟨.inl rfl, Nat.zero_le _, rfl, rfl, by decide⟩ rfl

theorem legal_msima2 : Legal (busyOn 16 .msima2 2 2 256 [1, 2, 3, 4]) :=
  legal_busyOn (by decide) ⟨.inr rfl, Nat.zero_le _, rfl, rfl, by decide⟩ rfl

theorem legal_msadpcm : Legal (busyOn 8 .msadpcm 3 2 14 [1, 9]) :=
  legal_busyOn (by decide) ⟨.inr rfl, Nat.zero_le _, rfl, by decide⟩ rfl

/-- Data is left: the read position is inside the source and the valid range, and no read was short. -/
theorem not_endOfData {s : State} (h1 : s.pos < s.src.len) (h2 : s.pos < s.latched.endPos) (h3 : s.eosFlag = false) :
    endOfData s = false := by
  rw [Bool.eq_false_iff, ne_eq, endOfData_iff, h3]
  rintro (⟨-, h⟩ | ⟨-, h⟩ | h)
  · omega
  · cases h
  · omega

/-- No step of a READ ends here, so it goes on. -/
theorem not_loopExit {s : State} (h0 : s.outCount.toNat < s.reqN.toNat) (h1 : s.pos < s.src.len)
    (h2 : s.pos < s.latched.endPos) (h3 : s.eosFlag = false) : loopExit s = false := by
  rw [loopExit, not_endOfData h1 h2 h3, Bool.or_false]
  exact decide_eq_false (by omega)

/-- IllegalCommandWords: both bounds of the reserved opcodes, `ZERO` alone, both modes; and a legal word. -/
theorem witness_illegal :
    ((0 : U32).toNat % 16 = 0 ∧ 8 ≤ (8 : U32).toNat % 16 ∧ 8 ≤ (15 : U32).toNat % 16 ∧ (0x11 : U32).toNat / 16 ≠ 0) ∧
    ((hostDoes (.writeCmd 8) State.reset).host = [.writeCmd 8] ∧
      (hostDoes (.writeCmd 8) State.reset).mode = .unconfigured) ∧
    (hostDoes (.writeCmd 0x11) (readyOn .ima 1 1 0 [])).mode = .ready ∧
    ¬((7 : U32).toNat % 16 = 0 ∨ 8 ≤ (7 : U32).toNat % 16 ∨ (7 : U32).toNat / 16 ≠ 0) := by decide

/-- EncodeDecodeRoundTrip, its second half. -/
theorem witness_round_trip : decode (.cmd 7) = .instr .release := by decide

/-- SourceReadByte: the last byte, and the place after it. -/
theorem witness_source : (readyOn .ima 1 1 0 [9]).pos < (readyOn .ima 1 1 0 [9]).src.len ∧
    ({ readyOn .ima 1 1 0 [9] with pos := 1 } : State).src.len ≤ ({ readyOn .ima 1 1 0 [9] with pos := 1 } : State).pos := by
  decide

/-- StepRunsDecodedCommand. -/
theorem witness_step_command : (hostDoes (.writeCmd 1) State.reset).mode ≠ .busy ∧
    (hostDoes (.writeCmd 1) State.reset).host = [.writeCmd 1] ∧ decode (.cmd 1) = .instr .configure := by decide

/-- StepRunsReadLoop, the exit: `s = N`, and the end of the range with `s < N`. -/
theorem witness_loop_exit : (busyOn 0 .ima 1 1 0 [1]).mode = .busy ∧
    (busyOn 0 .ima 1 1 0 [1]).reqN.toNat ≤ (busyOn 0 .ima 1 1 0 [1]).outCount.toNat ∧
    endOfData (busyOn 2 .ima 1 1 0 []) = true := by
  refine ⟨rfl, by decide, ?_⟩
  rw [endOfData_iff]
  exact .inr (.inr (Nat.le_refl _))

/-- StepRunsReadLoop, an iteration of each variant, at a header and after one. -/
theorem witness_loop_runs :
    (∀ v f c b bytes, 0 < bytes.length → (busyOn 4 v f c b bytes).outCount.toNat < (busyOn 4 v f c b bytes).reqN.toNat ∧
      endOfData (busyOn 4 v f c b bytes) = false) ∧
    (busyOn 4 .msima1 2 1 6 [0]).blockPos.ch0 = (busyOn 4 .msima1 2 1 6 [0]).latched.blockAlign ∧
    ({ busyOn 4 .msadpcm 3 1 9 [0] with blockPos := ⟨7, 9⟩ } : State).blockPos.ch0 ≠
      ({ busyOn 4 .msadpcm 3 1 9 [0] with blockPos := ⟨7, 9⟩ } : State).latched.blockAlign :=
  ⟨fun _ _ _ _ _ h => ⟨show 0 < (4 : U32).toNat by decide, not_endOfData h h rfl⟩, rfl, by decide⟩

/-- ReadResultIsBounded: a legal state at the loop's exit, for MSIMA2. -/
theorem witness_read_result : Legal (busyOn 0 .msima2 2 2 256 [1]) ∧ (busyOn 0 .msima2 2 2 256 [1]).mode = .busy ∧
    (busyOn 0 .msima2 2 2 256 [1]).reqN.toNat ≤ (busyOn 0 .msima2 2 2 256 [1]).outCount.toNat ∧
    (busyOn 0 .msima2 2 2 256 [1]).latched.variant = .msima2 :=
  ⟨legal_busyOn (by decide) ⟨.inr rfl, Nat.zero_le _, rfl, rfl, by decide⟩ rfl, rfl, Nat.le_refl _, rfl⟩

/-- ArgumentRegisterWrites, StatusRegisterFields, SourceAndArgumentsNotWritten: nothing pending, and a write pending. -/
theorem witness_arg_write : State.reset.mode ≠ .busy ∧ State.reset.host = [] ∧
    (hostDoes (.writeArg .cfgSize 5) State.reset).host = [.writeArg .cfgSize 5] ∧
    HostReg.status ≠ HostReg.arg .cfgSize := by decide

/-- CommandAcceptance: a write of `CMD` pending in each mode, and each case's word. -/
theorem witness_acceptance : (hostDoes (.writeCmd 2) (busyOn 2 .ima 1 1 0 [1])).mode = .busy ∧
    (hostDoes (.writeCmd 2) { State.reset with mode := .faulted, faultCode := 5 }).mode = .faulted ∧
    ((0x10 : U32).toNat / 16 ≠ 0 ∧ ¬(1 ≤ (0 : U32).toNat % 16 ∧ (0 : U32).toNat % 16 ≤ 7)) ∧
    ((hostDoes (.writeCmd 2) State.reset).mode = .unconfigured ∧ (2 : U32).toNat / 16 = 0 ∧ (2 : U32).toNat % 16 ≠ 1) ∧
    ((hostDoes (.writeCmd 1) (readyOn .ima 1 1 0 [])).mode = .ready ∧ (1 : U32).toNat % 16 = 1) ∧
    ((hostDoes (.writeCmd 7) (readyOn .ima 1 1 0 [])).mode = .ready ∧ (7 : U32).toNat % 16 = 7) := by decide

/-- FaultedUntilReset, HardwareResetValues: a faulted core with a command, an idle host, or hardware reset pending. -/
theorem witness_faulted : ({ State.reset with mode := .faulted, faultCode := 7 } : State).mode = .faulted ∧
    (hostDoes (.writeCmd 9) { State.reset with mode := .faulted, faultCode := 7 }).host = [.writeCmd 9] ∧
    ({ State.reset with mode := .faulted, faultCode := 7 } : State).host.head? ≠ some .hardwareReset ∧
    (hostDoes .hardwareReset { State.reset with mode := .faulted, faultCode := 7 }).host = [.hardwareReset] ∧
    step (hostDoes .hardwareReset { State.reset with mode := .faulted, faultCode := 7 }) = .next State.reset ∧
    State.reset.mode ≠ .faulted := ⟨rfl, rfl, by decide, rfl, rfl, by decide⟩

/-- OutputWrite: the first index past the request, and the last inside it. -/
theorem witness_output : (busyOn 2 .ima 1 1 0 []).reqN.toNat ≤ 2 ∧ 1 < (busyOn 2 .ima 1 1 0 []).reqN.toNat ∧
    OutSpace.wf (busyOn 2 .ima 1 1 0 []).out := by decide

/-- ConfigureChecksThenLatches: arguments for each of its six outcomes, at the bounds of the checks. -/
theorem witness_configure : State.reset.mode = .unconfigured ∧
    configError (cfgArgs 0 1 0 0) = some .unsupportedFormat ∧ configError (cfgArgs 4 1 0 0) = some .unsupportedFormat ∧
    configError (cfgArgs 1 0 0 0) = some .badChannels ∧ configError (cfgArgs 1 3 0 0) = some .badChannels ∧
    configError (cfgArgs 2 2 0 0) = some .zeroBlockAlign ∧ configError (cfgArgs 2 1 3 0) = some .blockAlignTooSmall ∧
    configError (cfgArgs 3 2 13 0) = some .blockAlignTooSmall ∧ configError (cfgArgs 1 1 0 0) = none ∧
    configError (cfgArgs 2 1 4 0) = none ∧ configError (cfgArgs 2 2 1 0) = none ∧ configError (cfgArgs 3 2 14 0) = none := by
  decide

/-- ReadStartsRequest, RewindRestarts, QueryEndOfData, QueryStereoAndRate, ReleaseClearsInstance: a decoder in
`READY`; READ's counts that fault and that start. -/
theorem witness_ready : (readyOn .msima2 2 2 8 []).mode = .ready ∧ (readyOn .msima2 2 2 8 []).latched.variant ≠ .unset ∧
    badRequest .msima2 8 = true ∧ badRequest .msima2 16 = false ∧ badRequest .ima 1 = true ∧ badRequest .ima 0 = false := by
  decide

/-- RewindEqualsFreshConfigure. -/
theorem witness_rewind : ∃ t s u : State, exec .configure { State.reset with args := cfgArgs 1 2 0 9 } = .next t ∧
    t.mode = .ready ∧ s.mode = .ready ∧ s.latched = t.latched ∧ s.pos = 7 ∧ exec .rewind s = .next u :=
  ⟨_, { configure { State.reset with args := cfgArgs 1 2 0 9 } with pos := 7 }, _, rfl, rfl, rfl, rfl, rfl, rfl⟩

/-- EosModesAgreeInsideSource. -/
theorem witness_eos : (readyOn .ima 1 1 0 [1]).latched.endPos ≤ (readyOn .ima 1 1 0 [1]).src.len ∧
    (readyOn .ima 1 1 0 [1]).eosFlag = false := by decide

/-- DecodeImaResult and DecodeImaStaysInRange: both sides of both bounds of the index. -/
theorem witness_decodeIma : (s32 (-1)).toInt < 0 ∧ 88 < (89 : U32).toInt ∧
    (0 ≤ (0 : U32).toInt ∧ (0 : U32).toInt ≤ 88 ∧ imaSteps[(0 : U32).toInt.toNat]? = some 7) ∧
    ((88 : U32).toInt ≤ 88 ∧ imaSteps[(88 : U32).toInt.toNat]? = some 32767) := by decide

/-- ImaByteResult, in stereo and in mono. -/
theorem witness_imaByte (c : U32) : OutSpace.wf (busyOn 2 .ima 1 c 0 [0x4C]).out ∧
    stepIndexOk (busyOn 2 .ima 1 c 0 [0x4C]).ima.ch0 = true ∧ stepIndexOk (busyOn 2 .ima 1 c 0 [0x4C]).ima.ch1 = true ∧
    (busyOn 2 .ima 1 c 0 [0x4C]).outCount.toNat + 2 ≤ (busyOn 2 .ima 1 c 0 [0x4C]).reqN.toNat :=
  ⟨cellsWf_nil, rfl, rfl, Nat.le_refl _⟩

/-- MsimaByteResult. -/
theorem witness_msimaByte : OutSpace.wf (busyOn 2 .msima1 2 1 6 [0x21]).out ∧
    stepIndexOk (busyOn 2 .msima1 2 1 6 [0x21]).ima.ch0 = true ∧
    (busyOn 2 .msima1 2 1 6 [0x21]).outCount.toNat + 2 ≤ (busyOn 2 .msima1 2 1 6 [0x21]).reqN.toNat := by decide

/-- MsimaGroupResult. -/
theorem witness_msimaGroup : OutSpace.wf (busyOn 16 .msima2 2 2 256 []).out ∧
    stepIndexOk (busyOn 16 .msima2 2 2 256 []).ima.ch0 = true ∧
    stepIndexOk (busyOn 16 .msima2 2 2 256 []).ima.ch1 = true ∧
    (busyOn 16 .msima2 2 2 256 []).outCount.toNat + 16 ≤ (busyOn 16 .msima2 2 2 256 []).reqN.toNat := by decide

/-- MsCoefficientPairs, at both ends of the tables. -/
theorem witness_coeffs : ([(256, 0), (512, -256), (0, 0), (192, 64), (240, 0), (460, -208), (392, -232)] :
      List (Int × Int))[(0 : Byte).toNat]? = some (256, 0) ∧
    ([(256, 0), (512, -256), (0, 0), (192, 64), (240, 0), (460, -208), (392, -232)] :
      List (Int × Int))[(6 : Byte).toNat]? = some (392, -232) := by decide

/-- MsadpcmHeaderStereo, MsadpcmHeaderMono and MsadpcmHeaderOverrun: a header that just fits, and one that just does
not. -/
theorem witness_msadpcmHdr : OutSpace.wf (busyOn 4 .msadpcm 3 2 14 []).out ∧
    (busyOn 4 .msadpcm 3 2 14 []).latched.channels = 2 ∧
    (busyOn 4 .msadpcm 3 2 14 []).outCount.toNat + 4 ≤ (busyOn 4 .msadpcm 3 2 14 []).reqN.toNat ∧
    (busyOn 2 .msadpcm 3 1 7 []).latched.channels = 1 ∧
    (busyOn 2 .msadpcm 3 1 7 []).outCount.toNat + 2 ≤ (busyOn 2 .msadpcm 3 1 7 []).reqN.toNat ∧
    (busyOn 2 .msadpcm 3 2 14 []).reqN.toNat <
      (busyOn 2 .msadpcm 3 2 14 []).outCount.toNat + 2 * (busyOn 2 .msadpcm 3 2 14 []).latched.channels.toNat := by decide

/-- DecodeMsResult: the table's entries for the first and the last code; DecodeMsStaysInRange: a delta of 0, and the
last negative one it speaks of with 16 bits. -/
theorem witness_decodeMs : msAdaptTable[(0 : Code).toNat]? = some 230 ∧ msAdaptTable[(15 : Code).toNat]? = some 230 ∧
    (0 : U32).toInt ≤ 0 ∧ (s32 (-10922)).toInt ≤ 0 ∧ -10922 ≤ (s32 (-10922)).toInt := by decide

/-- P5 before its first payload byte. -/
def p5Busy : State := { busyOn 2 .msadpcm 3 2 16 [0x3C] with ms := p5Regs, blockPos := ⟨14, 16⟩ }

/-- MsadpcmByteResult, in stereo and in mono, under either width of the delta. -/
theorem witness_msadpcmByte : OutSpace.wf p5Busy.out ∧ p5Busy.outCount.toNat + 2 ≤ p5Busy.reqN.toNat ∧
    p5Busy.latched.channels = 2 ∧ msOverflow (hiNibble (wireByte p5Busy 0)) p5Busy.ms.ch0 = false ∧
    msOverflow (loNibble (wireByte p5Busy 0)) p5Busy.ms.ch1 = false ∧
    (let s : State := { busyOn 2 .msadpcm 3 1 16 [0x3C] with ms := p5Regs, blockPos := ⟨7, 16⟩ }
     OutSpace.wf s.out ∧ s.latched.channels = 1 ∧ s.outCount.toNat + 2 ≤ s.reqN.toNat ∧
      msOverflow (hiNibble (wireByte s 0)) s.ms.ch0 = false ∧
      ∀ bits, msOverflow (loNibble (wireByte s 0)) (msNext bits (hiNibble (wireByte s 0)) s.ms.ch0) = false) := by
  refine ⟨by decide, by decide, by decide, by decide, by decide, by decide, by decide, by decide, by decide, ?_⟩
  intro bits
  cases bits <;> decide

/-- The registers of V-MS-5, row 2. -/
def wideRegs : MsChan := ⟨0, 256, 0, 2796203, 0, 0⟩

/-- PayloadFaultsArePrecise, where the width of the delta is 32 bits: a step index out of range on either channel, and
an overflow in the first decode of the byte 0x88 and in the second, in stereo and in mono. -/
theorem witness_payload_faults :
    stepIndexOk ({ busyOn 2 .msima1 2 1 6 [0] with ima := ⟨⟨0, 100⟩, ⟨0, 0⟩⟩ } : State).ima.ch0 = false ∧
    (let s : State := { busyOn 2 .ima 1 2 0 [0] with ima := ⟨⟨0, 0⟩, ⟨0, 89⟩⟩ }
     s.latched.channels = 2 ∧ s.outCount.toNat < s.reqN.toNat ∧ stepIndexOk s.ima.ch0 = true ∧
      stepIndexOk s.ima.ch1 = false) ∧
    (let s : State := { busyOn 2 .msadpcm 3 2 16 [0x88] with ms := ⟨wideRegs, wideRegs⟩ }
     msOverflow (hiNibble (wireByte s 0)) s.ms.ch0 = true) ∧
    (let s : State := { busyOn 2 .msadpcm 3 2 16 [0x88] with ms := ⟨MsChan.zero, wideRegs⟩ }
     s.latched.channels = 2 ∧ s.outCount.toNat < s.reqN.toNat ∧
      msOverflow (hiNibble (wireByte s 0)) s.ms.ch0 = false ∧ msOverflow (loNibble (wireByte s 0)) s.ms.ch1 = true) ∧
    (let s : State := { busyOn 2 .msadpcm 3 1 16 [0x88] with ms := ⟨⟨0, 256, 0, 1000000, 0, 0⟩, MsChan.zero⟩ }
     s.latched.channels = 1 ∧ s.outCount.toNat < s.reqN.toNat ∧
      msOverflow (hiNibble (wireByte s 0)) s.ms.ch0 = false ∧
      msOverflow (loNibble (wireByte s 0)) (msNext .bits32 (hiNibble (wireByte s 0)) s.ms.ch0) = true) := by
  decide

/-- StepKeepsLegal and LegalStatesNeverStop: a legal state and its step; and the refused binding. -/
theorem witness_legal_step : Legal (busyOn 4 .ima 1 1 0 [0x17, 0x80, 0x3C]) ∧
    (∃ t, step (busyOn 4 .ima 1 1 0 [0x17, 0x80, 0x3C]) = .next t) ∧
    step (hostDoes (.bindSource [] [1]) (readyOn .ima 1 1 0 [])) = .refused .sourceBoundDuringInstance := by
  exact ⟨legal_ima, ⟨_, step_of_unit (i := .imaByte) rfl (not_loopExit (by decide) (by decide) (by decide) rfl) rfl⟩, rfl⟩

/-- ReadTerminates. -/
theorem witness_terminates : Legal (busyOn 8 .msadpcm 3 2 14 [1, 9]) ∧ (busyOn 8 .msadpcm 3 2 14 [1, 9]).mode = .busy :=
  ⟨legal_msadpcm, rfl⟩

/-- PlainImaReadDecodesStream, with two bytes to decode and a third not reached. -/
theorem witness_plain_ima : Legal (busyOn 4 .ima 1 1 0 [0x17, 0x80, 0x3C]) ∧
    (busyOn 4 .ima 1 1 0 [0x17, 0x80, 0x3C]).mode = .busy ∧
    (busyOn 4 .ima 1 1 0 [0x17, 0x80, 0x3C]).latched.variant = .ima ∧
    (busyOn 4 .ima 1 1 0 [0x17, 0x80, 0x3C]).latched.endPos ≤ (busyOn 4 .ima 1 1 0 [0x17, 0x80, 0x3C]).src.len ∧
    (busyOn 4 .ima 1 1 0 [0x17, 0x80, 0x3C]).eosFlag = false :=
  ⟨legal_ima, rfl, rfl, Nat.le_refl _, rfl⟩

/-- UnitLengths and OutputStaysInsideRequest: a READ's step that stays in `BUSY`, at a block header. -/
theorem witness_unit : Legal (busyOn 4 .msima1 2 1 4 [1, 0, 2, 0]) ∧
    (busyOn 4 .msima1 2 1 4 [1, 0, 2, 0]).mode = .busy ∧ loopExit (busyOn 4 .msima1 2 1 4 [1, 0, 2, 0]) = false ∧
    ∃ t, step (busyOn 4 .msima1 2 1 4 [1, 0, 2, 0]) = .next t ∧ t.mode = .busy := by
  have h : loopExit (busyOn 4 .msima1 2 1 4 [1, 0, 2, 0]) = false := not_loopExit (by decide) (by decide) (by decide) rfl
  exact ⟨legal_msima1, rfl, h, msimaHdr (busyOn 4 .msima1 2 1 4 [1, 0, 2, 0]), step_of_unit rfl h rfl, rfl⟩

/-- ConfigurationOnlyLatched: a step that latches, one that clears, and hardware reset. -/
theorem witness_latched :
    (∃ t, step (hostDoes (.writeCmd 1) { State.reset with args := cfgArgs 1 1 0 0 }) = .next t ∧
      t.latched ≠ State.reset.latched) ∧
    (∃ t, step (hostDoes (.writeCmd 7) (readyOn .ima 1 1 0 [])) = .next t ∧
      t.latched ≠ (readyOn .ima 1 1 0 []).latched) ∧
    ∃ t, step (hostDoes .hardwareReset (readyOn .ima 1 1 0 [])) = .next t ∧
      t.latched ≠ (readyOn .ima 1 1 0 []).latched :=
  ⟨⟨_, rfl, by decide⟩, ⟨_, rfl, by decide⟩, ⟨_, rfl, by decide⟩⟩

/-- SourceAndArgumentsNotWritten and ResultOnlyOnCompletion: steps that change an argument register, `RESULT`, and
`MODE` to `FAULTED`, and a step with a decoder. -/
theorem witness_results :
    (∃ t, step (hostDoes (.writeArg .reqCount 3) (readyOn .ima 1 1 0 [])) = .next t ∧
      hasInstance (hostDoes (.writeArg .reqCount 3) (readyOn .ima 1 1 0 [])) = true ∧ t.args ≠ ArgRegs.zero) ∧
    (∃ t, step (hostDoes (.writeCmd 6) (readyOn .ima 1 1 0 [])) = .next t ∧ t.result ≠ 0) ∧
    ∃ t, step (hostDoes (.writeCmd 2) State.reset) = .next t ∧ t.mode = .faulted :=
  ⟨⟨_, rfl, by decide⟩, ⟨_, rfl, by decide⟩, ⟨_, rfl, rfl⟩⟩

/-- FamiliesAreSeparate and MicroOperationFrame: each micro-operation and primitive answers a next state. -/
theorem witness_frames : ∀ i ∈ [Instr.imaByte, .msimaHdr, .msimaByte, .msimaGroup, .msadpcmHdr, .msadpcmByte,
      .decodeIma 3 .c1, .decodeMs .c1 3],
    i ∉ [Instr.configure, .read, .rewind, .queryEod, .queryStereo, .queryRate, .release] ∧
      ∃ t, exec i (busyOn 16 .ima 1 2 0 [1]) = .next t := by
  simp only [List.forall_mem_cons, List.not_mem_nil, false_implies, implies_true, and_true]
  exact ⟨⟨by decide, _, rfl⟩, ⟨by decide, _, rfl⟩, ⟨by decide, _, rfl⟩, ⟨by decide, _, rfl⟩, ⟨by decide, _, rfl⟩,
    ⟨by decide, _, rfl⟩, ⟨by decide, _, rfl⟩, ⟨by decide, _, rfl⟩⟩

/-- ReportsInfluenceNothing: two states that differ in all three reports. -/
theorem witness_reports :
    SameButReports State.reset { State.reset with cmd := 3, result := 9, events := [.sourceReleased] } := rfl

end Sys2Proof.Tests
end

/-! # The state, its invariant and what steps leave unchanged (10_state.md) -/

namespace Sys2Proof.Machine

/-! ### Everything a host step can do -/

/-- Everything a host write of `CMD` can do to the state it finds, by what the word decodes to (R100). -/
inductive CmdEffect (d : Decoded) (s : State) : State → Prop where
  | ignored (hm : s.mode = .faulted) : CmdEffect d s s
  | raised (code : FaultCode) (hm : s.mode = .unconfigured ∨ s.mode = .ready) : CmdEffect d s (raise code s)
  | configured (hd : d = .instr .configure) (hm : s.mode = .unconfigured) (hc : configError s.args = none) :
      CmdEffect d s (setResult 0 { initDerived { s with latched := latchedOf s } with mode := .ready })
  | started (hm : s.mode = .ready) (hn : badRequest s.latched.variant s.args.reqCount = false) :
      CmdEffect d s { s with reqN := s.args.reqCount, outCount := 0, mode := .busy }
  | rewound (hm : s.mode = .ready) : CmdEffect d s (rewind s)
  | queried (v : U32) (hm : s.mode = .ready) : CmdEffect d s (setResult v s)
  | released (hd : d = .instr .release) (hm : s.mode = .ready) : CmdEffect d s (release s)

section
variable {d : Decoded} {s t : State}

theorem acceptIllegal_effect (h : acceptIllegal s = .next t) : CmdEffect d s t := by
  obtain ⟨hm, rfl⟩ | ⟨hm, rfl⟩ := acceptIllegal_cases h
  · exact .ignored hm
  · exact .raised _ hm

theorem acceptWhenReady_effect {body : State → State} (h : acceptWhenReady body s = .next t)
    (hbody : s.mode = .ready → CmdEffect d s (body s)) : CmdEffect d s t := by
  obtain ⟨hm, rfl⟩ | ⟨hm, rfl⟩ | ⟨hm, rfl⟩ := acceptWhenReady_cases h
  · exact .ignored hm
  · exact .raised _ (.inl hm)
  · exact hbody hm

theorem configure_effect (hd : d = .instr .configure) (hm : s.mode = .unconfigured) :
    CmdEffect d s (configure s) := by
  unfold configure
  split
  · exact .raised _ (.inl hm)
  · exact .configured hd hm ‹_›

theorem startRead_effect (hm : s.mode = .ready) : CmdEffect d s (startRead s) := by
  unfold startRead
  split
  · exact .raised _ (.inr hm)
  · exact .started hm (Bool.eq_false_iff.2 ‹_›)

/-- A decoded command does one of the effects (R100, R101, R104, R108, R110 to R113). -/
theorem exec_cmd_effect {w : U32} {i : Instr} (hd : decode (.cmd w) = .instr i) (h : exec i s = .next t) :
    CmdEffect (decode (.cmd w)) s t := by
  rw [hd]
  obtain rfl | rfl | rfl | rfl | rfl | rfl | rfl := cmd_instr_cases hd
  · obtain ⟨hm, rfl⟩ | ⟨hm, rfl⟩ | ⟨hm, rfl⟩ := acceptConfigure_cases h
    · exact .ignored hm
    · exact .raised _ (.inr hm)
    · exact configure_effect rfl hm
  · exact acceptWhenReady_effect h startRead_effect
  · exact acceptWhenReady_effect h .rewound
  · exact acceptWhenReady_effect h (.queried _)
  · exact acceptWhenReady_effect h (.queried _)
  · exact acceptWhenReady_effect h (.queried _)
  · exact acceptWhenReady_effect h (.released rfl)

/-- The source a host binding gives (R50, R243). -/
def boundSource (before rest : List Byte) : Source where
  cells := cellsFrom 0 (before ++ rest)
  len := before.length + rest.length
  position := before.length

/-- Everything a step can do while no READ runs (R7, R100, R224, R243). -/
inductive HostEffect (s : State) : State → Prop where
  | idle (hh : s.host = []) : HostEffect s s
  | argWritten {r : ArgReg} {v : U32} {rest : List HostAction} (hh : s.host = .writeArg r v :: rest) :
      HostEffect s (setArg r v { s with host := rest })
  | command {w : U32} {rest : List HostAction} {t : State} (hh : s.host = .writeCmd w :: rest)
      (he : CmdEffect (decode (.cmd w)) { s with host := rest, cmd := w } t) : HostEffect s t
  | sourceBound {before more : List Byte} {rest : List HostAction} (hh : s.host = .bindSource before more :: rest)
      (hi : hasInstance s = false) : HostEffect s { s with host := rest, src := boundSource before more }
  | outBound {samples : List Sample} {rest : List HostAction} (hh : s.host = .bindOut samples :: rest) :
      HostEffect s (bindOut samples { s with host := rest })
  | resetDone {rest : List HostAction} (hh : s.host = .hardwareReset :: rest) :
      HostEffect s (hardwareReset { s with host := rest })

theorem bindSource_next {before more : List Byte} (h : bindSource before more s = .next t) :
    hasInstance s = false ∧ t = { s with src := boundSource before more } := by
  unfold bindSource at h
  split at h
  · cases h
  · exact ⟨Bool.eq_false_iff.2 ‹_›, (next_inj h).symm⟩

theorem step_host_effect (hm : s.mode ≠ .busy) (h : step s = .next t) : HostEffect s t := by
  obtain ⟨hh, rfl⟩ | ⟨r, v, rest, hh, rfl⟩ | ⟨w, rest, i, hh, hd, he⟩ | ⟨w, rest, why, hh, -, he⟩ |
    ⟨before, more, rest, hh, he⟩ | ⟨samples, rest, hh, rfl⟩ | ⟨rest, hh, rfl⟩ := step_host_cases hm h
  · exact .idle hh
  · exact .argWritten hh
  · exact .command hh (exec_cmd_effect hd he)
  · exact .command hh (acceptIllegal_effect he)
  · obtain ⟨hi, rfl⟩ := bindSource_next he
    exact .sourceBound hh hi
  · exact .outBound hh
  · exact .resetDone hh

end

/-! ### What every micro-operation and primitive keeps -/

/-- `P` is kept by every update a micro-operation or primitive is made of. -/
structure UpdateClosed (P : State → Prop) : Prop where
  read : ∀ n t, P t → P (afterReads n t)
  ima : ∀ c v t, P t → P (setIma c v t)
  ms : ∀ c v t, P t → P (setMs c v t)
  out : ∀ i v t, P t → P (setOut i v t)
  block : ∀ v t, P t → P (setBlockPos v t)
  count : ∀ k t, P t → P (addCount k t)
  fault : ∀ code t, P t → P (raise code t)

section
variable {P : State → Prop} {s t : State}

theorem UpdateClosed.toImaClosed (h : UpdateClosed P) (lo : Nat) : ImaClosed lo P :=
  ⟨h.read, h.ima, fun i v t _ _ => h.out i v t, h.count, h.fault⟩

theorem UpdateClosed.toMsClosed (h : UpdateClosed P) (lo : Nat) : MsClosed lo P :=
  ⟨⟨h.read, h.ms⟩, fun i v t _ _ => h.out i v t, h.block, h.count, h.fault⟩

theorem decodeIma_state {code : Code} {c : Chan} (hima : ∀ v, P (setIma c v s))
    (hfault : ∀ f, P (raise f s)) : P (decodeIma code c s).state := by
  cases hk : stepIndexOk (s.ima.get c)
  · rw [decodeIma_fault hk]
    exact hfault _
  · rw [decodeIma_ok hk]
    exact hima _

theorem decodeMs_state {bits : DeltaBits} {code : Code} {c : Chan} (hms : ∀ v, P (setMs c v s))
    (hfault : ∀ f, P (raise f s)) : P (decodeMs bits c code s).state := by
  dsimp only [decodeMs]
  split
  · exact hfault _
  · exact hms _

/-- The rows of the opcode table that are commands (R71). -/
abbrev commands : List Instr := [.configure, .read, .rewind, .queryEod, .queryStereo, .queryRate, .release]

/-- What every update keeps, every micro-operation and primitive keeps, whether it completes or faults. -/
theorem exec_micro_state (h : UpdateClosed P) (hs : P s) {i : Instr} (hi : i ∉ commands)
    (he : exec i s = .next t) : P t := by
  cases i
  case configure | read | rewind | queryEod | queryStereo | queryRate | release => exact absurd (by decide) hi
  all_goals obtain rfl := next_inj he
  case imaByte => exact imaByte_state (h.toImaClosed _) hs
  case msimaHdr => exact msimaHdr_state (h.toImaClosed 0) h.block hs
  case msimaByte => exact msimaByte_state (h.toImaClosed _) h.block hs
  case msimaGroup => exact msimaGroup_state (h.toImaClosed _) hs
  case msadpcmHdr => exact msadpcmHdr_state (h.toMsClosed _) _ hs
  case msadpcmByte => exact msadpcmByte_state (h.toMsClosed _) _ hs
  case decodeIma => exact decodeIma_state (fun v => h.ima _ v _ hs) fun f => h.fault f _ hs
  case decodeMs => exact decodeMs_state (fun v => h.ms _ v _ hs) fun f => h.fault f _ hs

theorem unitSelector_not_command {i : Instr} (hd : decode (unitSelector s) = .instr i) : i ∉ commands := by
  unfold unitSelector at hd
  generalize s.latched.variant = v, (s.blockPos.ch0 == s.latched.blockAlign) = b at hd
  cases v <;> cases b <;> cases hd <;> decide

/-- A step of a running READ ends it or keeps what every update keeps (R105). -/
theorem step_busy_state (h : UpdateClosed P) (hs : P s) (hm : s.mode = .busy) (he : step s = .next t) :
    t = finishRead s ∨ P t := by
  by_cases hl : loopExit s = true
  · rw [step_of_exit hm hl] at he
    exact .inl (next_inj he).symm
  · cases hd : decode (unitSelector s) with
    | instr i =>
      rw [step_of_unit hm (Bool.eq_false_iff.2 hl) hd] at he
      exact .inr (exec_micro_state h hs (unitSelector_not_command hd) he)
    | rejected why => simp [step, hm, readIteration, hl, hd] at he

/-- What no micro-operation or primitive writes (R22, R24, R26, R27, R30, R50, R113). -/
def MicroFrame (s t : State) : Prop :=
  t.cmd = s.cmd ∧ t.result = s.result ∧ t.args = s.args ∧ t.latched = s.latched ∧ t.blockPos.ch1 = s.blockPos.ch1 ∧
    t.src = s.src ∧ t.events = s.events ∧ t.host = s.host ∧
    (t.mode = .faulted ∨ (t.mode = s.mode ∧ t.faultCode = s.faultCode ∧ t.reqN = s.reqN))

theorem microFrame_closed (s : State) : UpdateClosed (MicroFrame s) where
  read _ _ h := h
  ima _ _ _ h := h
  ms _ _ _ h := h
  out _ _ _ h := h
  block _ _ h := h
  count _ _ h := h
  fault _ _ h := by
    obtain ⟨hcmd, hres, hargs, hlat, hblk, hsrc, hev, hhost, -⟩ := h
    exact ⟨hcmd, hres, hargs, hlat, hblk, hsrc, hev, hhost, .inl rfl⟩

theorem microFrame_refl (s : State) : MicroFrame s s := ⟨rfl, rfl, rfl, rfl, rfl, rfl, rfl, rfl, .inr ⟨rfl, rfl, rfl⟩⟩

/-- The frame of a step of a READ that goes on or faults. -/
theorem step_busy_frame (hm : s.mode = .busy) (he : step s = .next t) : t = finishRead s ∨ MicroFrame s t :=
  step_busy_state (microFrame_closed s) (microFrame_refl s) hm he

end
end Sys2Proof.Machine

namespace Sys2Proof.Machine

/-! ### The invariant's clauses channel by channel -/

/-- The clause of `ImaOk` on one channel (R32, R33). -/
def ImaChanOk (var : Variant) (c : Chan) (v : ImaChan) : Prop :=
  -32768 ≤ v.last.toInt ∧ v.last.toInt ≤ 32767 ∧ -32768 ≤ v.stepIndex.toInt ∧ v.stepIndex.toInt ≤ 32767 ∧
    (var ≠ .msima1 ∨ c = .c1 → stepIndexOk v = true)

/-- The clause of `MsOk` on one channel (R34, R35, R36). -/
def MsChanOk (v : MsChan) : Prop :=
  v.pred.toNat ≤ 6 ∧ (v = selectCoeffs v ∨ (v.coeff1 = 0 ∧ v.coeff2 = 0)) ∧
    (Config.msDeltaBits = .bits16 → -32768 ≤ v.delta.toInt ∧ v.delta.toInt ≤ 32767)

theorem imaOk_iff (s : State) : ImaOk s ↔ ∀ c, ImaChanOk s.latched.variant c (s.ima.get c) := Iff.rfl

theorem msOk_iff (s : State) : MsOk s ↔ ∀ c, MsChanOk (s.ms.get c) := Iff.rfl

/-- A property of every channel's registers survives writing one channel with registers that have it. -/
theorem forall_get_set {α : Type} {Q : Chan → α → Prop} {p : PerChan α} (h : ∀ d, Q d (p.get d)) {c : Chan}
    {v : α} (hv : Q c v) (d : Chan) : Q d ((p.set c v).get d) := by
  by_cases hd : d = c
  · subst hd
    rwa [get_set_same]
  · rw [get_set_other p hd]
    exact h d

theorem imaChanOk_zero (var : Variant) (c : Chan) : ImaChanOk var c ImaChan.zero := by
  have h : (ImaChan.zero.last.toInt = 0 ∧ ImaChan.zero.stepIndex.toInt = 0) ∧ stepIndexOk ImaChan.zero = true := by
    decide
  obtain ⟨⟨hl, hi⟩, hok⟩ := h
  exact ⟨by omega, by omega, by omega, by omega, fun _ => hok⟩

theorem imaChanOk_imaNext (var : Variant) (c : Chan) (code : Code) (v : ImaChan) :
    ImaChanOk var c (imaNext code v) := by
  have hok := stepIndexOk_imaNext code v
  have hl := imaNext_last_bounds code v
  have hi := (stepIndexOk_iff _).1 hok
  exact ⟨hl.1, hl.2, by omega, by omega, fun _ => hok⟩

theorem imaChanOk_imaAfter {var : Variant} {c : Chan} (codes : List Code) {v : ImaChan} (h : ImaChanOk var c v) :
    ImaChanOk var c (imaAfter codes v) := by
  induction codes generalizing v with
  | nil => exact h
  | cons code codes ih => exact ih (imaChanOk_imaNext var c code v)

/-- What an MSIMA1 header loads (R151). -/
theorem imaChanOk_header (x y : Sample) : ImaChanOk .msima1 .c0 ⟨x.signExtend 32, y.signExtend 32⟩ := by
  have hx := toInt16_bounds x
  have hy := toInt16_bounds y
  simp only [ImaChanOk, signExtend_toInt]
  exact ⟨hx.1, hx.2, hy.1, hy.2, fun h => by simp at h⟩

theorem msChanOk_zero : MsChanOk MsChan.zero :=
  ⟨by decide, .inr ⟨rfl, rfl⟩, fun _ => by decide⟩

theorem msChanOk_msNext {code : Code} {v : MsChan} (h : MsChanOk v)
    (hov : Config.msDeltaBits = .bits32 → msOverflow code v = false) :
    MsChanOk (msNext Config.msDeltaBits code v) := by
  obtain ⟨hpred, hcoeff, -⟩ := h
  refine ⟨hpred, hcoeff.imp (fun hsel => ?_) id, fun hb => ?_⟩
  · have h1 : v.coeff1 = (selectCoeffs v).coeff1 := congrArg MsChan.coeff1 hsel
    have h2 : v.coeff2 = (selectCoeffs v).coeff2 := congrArg MsChan.coeff2 hsel
    simp only [msNext, selectCoeffs, MsChan.mk.injEq] at h1 h2 ⊢
    exact ⟨trivial, h1, h2, trivial, trivial, trivial⟩
  · obtain ⟨hlo, -, hhi⟩ := msDelta_bounds Config.msDeltaBits code v hov
    rw [msNext_delta_toInt _ _ _ hov]
    exact ⟨by omega, hhi hb⟩

theorem msChanOk_headerChan (v : MsChan) (p : Byte) (d a b : Sample) : MsChanOk (headerChan v p d a b) := by
  refine ⟨?_, .inl rfl, fun _ => ?_⟩
  · show (clampPred p).toNat ≤ 6
    rw [clampPred_toNat]
    omega
  · show -32768 ≤ (d.signExtend 32).toInt ∧ (d.signExtend 32).toInt ≤ 32767
    rw [signExtend_toInt]
    exact toInt16_bounds d

/-! ### The part of the invariant that does not depend on the mode -/

/-- The clauses of `Legal` that do not speak of `MODE`, the fault code or the request: what a command or
micro-operation keeps at every point, so also where a fault cuts it short. -/
structure RegistersOk (s : State) : Prop where
  spaces : SpacesOk s
  live : hasInstance s = true → LatchedOk s.latched ∧ s.latched.startPos ≤ s.pos ∧ s.pos ≤ s.src.len
  cleared : hasInstance s = false → s.latched = Latched.zero ∧ s.pos = 0 ∧ s.eosFlag = false ∧ s.blockPos = ⟨0, 0⟩ ∧
    s.ima = ⟨ImaChan.zero, ImaChan.zero⟩ ∧ s.ms = ⟨MsChan.zero, MsChan.zero⟩
  block : BlockPosOk s
  ima : ImaOk s
  ms : MsOk s

/-- The clauses of `Legal` that tie `MODE` to the fault code, the decoder and the request. -/
structure ModeOk (s : State) : Prop where
  fault : FaultOk s
  live : s.mode = .ready ∨ s.mode = .busy → hasInstance s = true
  cleared : s.mode = .unconfigured → hasInstance s = false
  request : RequestOk s

theorem legal_iff (s : State) : Legal s ↔ RegistersOk s ∧ ModeOk s := by
  constructor
  · rintro ⟨hsp, hf, ⟨hl, hc, hlive, hclear⟩, hb, hi, hm, hr⟩
    exact ⟨⟨hsp, hlive, hclear, hb, hi, hm⟩, ⟨hf, hl, hc, hr⟩⟩
  · rintro ⟨⟨hsp, hlive, hclear, hb, hi, hm⟩, ⟨hf, hl, hc, hr⟩⟩
    exact ⟨hsp, hf, ⟨hl, hc, hlive, hclear⟩, hb, hi, hm, hr⟩

theorem faultNum_range (code : FaultCode) : faultNum code ≠ 0 ∧ (faultNum code).toNat ≤ 11 := by
  cases code <;> decide

section
variable {s t : State}

/-- `MODE`, the fault code, `RESULT` and the request take no part in `RegistersOk`. -/
theorem RegistersOk.withControl (h : RegistersOk s) (mode : Mode) (faultCode : BitVec 8) (result reqN outCount : U32) :
    RegistersOk { s with mode, faultCode, result, reqN, outCount } :=
  ⟨h.spaces, h.live, h.cleared, h.block, h.ima, h.ms⟩

theorem modeOk_raise (code : FaultCode) (s : State) : ModeOk (raise code s) where
  fault := ⟨iff_of_true rfl (faultNum_range code).1, (faultNum_range code).2⟩
  live hm := by simp at hm
  cleared hm := by simp at hm
  request := ⟨fun hm => by simp at hm, fun _ => ⟨rfl, rfl⟩⟩

/-- A fault leaves a legal state wherever it cuts an operation short (R212, R213). -/
theorem RegistersOk.legal_raise (h : RegistersOk s) (code : FaultCode) : Legal (Machine.raise code s) :=
  (legal_iff _).2 ⟨h.withControl .., modeOk_raise code s⟩

theorem faultCode_eq_zero (h : FaultOk s) (hm : s.mode ≠ .faulted) : s.faultCode = 0 :=
  Decidable.not_not.1 fun hc => hm (h.1.2 hc)

/-- The mode clauses of a state outside a READ and outside `FAULTED`. -/
theorem modeOk_idle (hf : s.faultCode = 0) (hn : s.reqN = 0) (hs : s.outCount = 0)
    (hm : s.mode = .ready ∧ hasInstance s = true ∨ s.mode = .unconfigured ∧ hasInstance s = false) : ModeOk s := by
  obtain ⟨hm, hi⟩ | ⟨hm, hi⟩ := hm
  all_goals
    have hfault : FaultOk s := ⟨by simp [hm, hf], by simp [hf]⟩
    exact ⟨hfault, by simp [hm, hi], by simp [hm, hi], ⟨by simp [hm], fun _ => ⟨hn, hs⟩⟩⟩

theorem ModeOk.of_not_busy (h : ModeOk s) (hm : s.mode = .ready ∨ s.mode = .unconfigured) :
    s.faultCode = 0 ∧ s.reqN = 0 ∧ s.outCount = 0 := by
  obtain ⟨hn, hs⟩ := h.request.2 (by rcases hm with hm | hm <;> simp [hm])
  exact ⟨faultCode_eq_zero h.fault (by rcases hm with hm | hm <;> simp [hm]), hn, hs⟩

/-! ### Commands and host actions keep the invariant -/

theorem configError_eq_none {a : ArgRegs} (h : configError a = none) :
    (a.format = 1 ∨ a.format = 2 ∨ a.format = 3) ∧ (a.channels = 1 ∨ a.channels = 2) ∧
      (a.format = 2 ∨ a.format = 3 → a.blockAlign ≠ 0) ∧
      (a.format = 2 → a.channels = 1 → 4 ≤ a.blockAlign.toNat) ∧
      (a.format = 3 → 7 * a.channels.toNat ≤ a.blockAlign.toNat) := by
  unfold configError at h
  split_ifs at h with hf hc hz h4 h7
  exact ⟨hf, hc, fun hfmt hb => hz ⟨hfmt, hb⟩,
    fun h2 h1 => Nat.not_lt.1 fun hlt => h4 ⟨h2, h1, hlt⟩, fun h3 => Nat.not_lt.1 fun hlt => h7 ⟨h3, hlt⟩⟩

/-- What passes the checks of CONFIGURE is a legal configuration with a variant (R101, R102). -/
theorem latchedOk_latchedOf (h : configError s.args = none) : LatchedOk (latchedOf s) := by
  obtain ⟨hf, hc, hz, h4, h7⟩ := configError_eq_none h
  refine ⟨hc, Nat.le_add_right _ _, ?_⟩
  obtain hf | hf | hf := hf
  · simp [latchedOf, selectVariant, hf]
  · obtain hc | hc := hc
    · simpa [latchedOf, selectVariant, hf, hc] using h4 hf hc
    · simpa [latchedOf, selectVariant, hf, hc] using hz (.inl hf)
  · simpa [latchedOf, selectVariant, hf] using h7 hf

theorem hasInstance_of_latchedOk (h : LatchedOk s.latched) : hasInstance s = true := by
  unfold hasInstance
  cases hv : s.latched.variant
  case unset => simp [LatchedOk, hv] at h
  all_goals decide

/-- A decoder at its initial registers is legal (R103). -/
theorem registersOk_initDerived (hsp : SpacesOk s) (hl : LatchedOk s.latched) (hpos : s.latched.startPos ≤ s.src.len) :
    RegistersOk (initDerived s) where
  spaces := hsp
  live _ := ⟨hl, Nat.le_refl _, hpos⟩
  cleared hi := by
    have := hasInstance_of_latchedOk (s := initDerived s) hl
    simp_all
  block _ := by
    refine ⟨rfl, Nat.le_refl _, ?_⟩
    obtain ⟨-, -, hv⟩ := hl
    cases hvar : s.latched.variant <;> simp_all
  ima c := by cases c <;> exact imaChanOk_zero _ _
  ms c := by cases c <;> exact msChanOk_zero

/-- No decoder: every register at its reset value, whatever stands in the rest (R45, R113). -/
theorem registersOk_cleared (hsp : SpacesOk s) (hl : s.latched = Latched.zero) (hp : s.pos = 0)
    (he : s.eosFlag = false) (hb : s.blockPos = ⟨0, 0⟩) (hi : s.ima = ⟨ImaChan.zero, ImaChan.zero⟩)
    (hm : s.ms = ⟨MsChan.zero, MsChan.zero⟩) : RegistersOk s := by
  have hno : hasInstance s = false := by
    rw [hasInstance, hl]
    rfl
  refine ⟨hsp, by simp [hno], fun _ => ⟨hl, hp, he, hb, hi, hm⟩, by simp [BlockPosOk, hno], fun c => ?_, fun c => ?_⟩
  · rw [hi]
    cases c <;> exact imaChanOk_zero _ _
  · rw [hm]
    cases c <;> exact msChanOk_zero

theorem SpacesOk.at_position (h : SpacesOk s) {p : Nat} (hp : p ≤ s.src.len) :
    SpacesOk { s with src := { s.src with position := p } } := by
  obtain ⟨hc, ho, hlt, -⟩ := h
  exact ⟨hc, ho, hlt, hp⟩

theorem legal_rewind (h : Legal s) (hm : s.mode = .ready) : Legal (rewind s) := by
  obtain ⟨hr, hmode⟩ := (legal_iff s).1 h
  have hi := hmode.live (.inl hm)
  obtain ⟨hl, hstart, hpos⟩ := hr.live hi
  obtain ⟨hf, hn, hs⟩ := hmode.of_not_busy (.inl hm)
  have hreg := registersOk_initDerived hr.spaces hl (Nat.le_trans hstart hpos)
  exact (legal_iff _).2 ⟨hreg.withControl .., modeOk_idle hf hn hs (.inl ⟨hm, hi⟩)⟩

theorem legal_configured (h : Legal s) (hm : s.mode = .unconfigured) (hc : configError s.args = none) :
    Legal (setResult 0 { initDerived { s with latched := latchedOf s } with mode := .ready }) := by
  obtain ⟨hr, hmode⟩ := (legal_iff s).1 h
  obtain ⟨hf, hn, hs⟩ := hmode.of_not_busy (.inr hm)
  have hl := latchedOk_latchedOf hc
  have hreg := registersOk_initDerived (s := { s with latched := latchedOf s }) hr.spaces hl hr.spaces.2.2.2
  exact (legal_iff _).2
    ⟨hreg.withControl .., modeOk_idle hf hn hs (.inl ⟨rfl, hasInstance_of_latchedOk hl⟩)⟩

theorem badRequest_eq_false {v : Variant} {n : U32} (hv : v ≠ .unset) (h : badRequest v n = false) :
    n.toNat % requestUnit v = 0 := by
  cases v
  case unset => exact absurd rfl hv
  all_goals simpa [badRequest, requestUnit] using h

theorem legal_started (h : Legal s) (hm : s.mode = .ready)
    (hn : badRequest s.latched.variant s.args.reqCount = false) :
    Legal { s with reqN := s.args.reqCount, outCount := 0, mode := .busy } := by
  obtain ⟨hr, hmode⟩ := (legal_iff s).1 h
  have hi := hmode.live (.inl hm)
  have hv : s.latched.variant ≠ .unset := by simpa [hasInstance] using hi
  have hf := (hmode.of_not_busy (.inl hm)).1
  refine (legal_iff _).2 ⟨hr.withControl ..,
    ⟨⟨by simp [hf], by simp [hf]⟩, fun _ => hi, by simp, ⟨fun _ => ?_, by simp⟩⟩⟩
  exact ⟨Nat.zero_le _, badRequest_eq_false hv hn, Nat.zero_mod _⟩

theorem legal_release (h : Legal s) (hm : s.mode = .ready) : Legal (release s) := by
  obtain ⟨hr, hmode⟩ := (legal_iff s).1 h
  obtain ⟨-, -, hpos⟩ := hr.live (hmode.live (.inl hm))
  obtain ⟨hf, hn, hs⟩ := hmode.of_not_busy (.inl hm)
  exact (legal_iff _).2 ⟨registersOk_cleared (hr.spaces.at_position hpos) rfl rfl rfl rfl rfl rfl,
    modeOk_idle hf hn hs (.inr ⟨rfl, rfl⟩)⟩

theorem legal_of_cmdEffect {d : Decoded} (h : Legal s) (he : CmdEffect d s t) : Legal t := by
  cases he with
  | ignored hm => exact h
  | raised code hm => exact ((legal_iff s).1 h).1.legal_raise code
  | configured hd hm hc => exact legal_configured h hm hc
  | started hm hn => exact legal_started h hm hn
  | rewound hm => exact legal_rewind h hm
  | queried v hm => exact h
  | released hd hm => exact legal_release h hm

theorem spacesOk_boundSource (h : SpacesOk s) (before more : List Byte) :
    SpacesOk { s with src := boundSource before more } := by
  obtain ⟨-, ho, -, -⟩ := h
  refine ⟨cellsWf_cellsFrom _ _, ho, fun x hx => ?_, Nat.le_add_right _ _⟩
  have := (mem_cellsFrom hx).2
  rw [List.length_append] at this
  show x.1 < before.length + more.length
  omega

theorem legal_boundSource (h : Legal s) (hi : hasInstance s = false) (before more : List Byte) :
    Legal { s with src := boundSource before more } := by
  obtain ⟨hr, hmode⟩ := (legal_iff s).1 h
  have hno : ¬hasInstance s = true := by simp [hi]
  exact (legal_iff _).2
    ⟨⟨spacesOk_boundSource hr.spaces before more, fun hi' => absurd hi' hno, hr.cleared, hr.block, hr.ima, hr.ms⟩,
      ⟨hmode.fault, hmode.live, hmode.cleared, hmode.request⟩⟩

theorem legal_bindOut (h : Legal s) (samples : List Sample) : Legal (bindOut samples s) := by
  obtain ⟨⟨hc, -, hlt, hp⟩, hrest⟩ := h
  exact ⟨⟨hc, cellsWf_cellsFrom _ _, hlt, hp⟩, hrest⟩

theorem legal_hardwareReset (h : Legal s) : Legal (hardwareReset s) := by
  obtain ⟨hr, -⟩ := (legal_iff s).1 h
  have hp : (if hasInstance s then s.pos else s.src.position) ≤ s.src.len := by
    split
    · exact (hr.live ‹_›).2.2
    · exact hr.spaces.2.2.2
  exact (legal_iff _).2 ⟨registersOk_cleared (hr.spaces.at_position hp) rfl rfl rfl rfl rfl rfl,
    modeOk_idle rfl rfl rfl (.inr ⟨rfl, rfl⟩)⟩

theorem legal_of_hostEffect (h : Legal s) (he : HostEffect s t) : Legal t := by
  cases he with
  | idle hh => exact h
  | argWritten hh => exact h
  | @command w rest _ hh he => exact legal_of_cmdEffect (s := { s with host := rest, cmd := w }) h he
  | @sourceBound before more rest hh hi => exact legal_boundSource (s := { s with host := rest }) h hi before more
  | @outBound samples rest hh => exact legal_bindOut (s := { s with host := rest }) h samples
  | @resetDone rest hh => exact legal_hardwareReset (s := { s with host := rest }) h

end
end Sys2Proof.Machine

namespace Sys2Proof.Machine

/-! ### The updates of a micro-operation keep the registers legal -/

/-- The registers of a live decoder are legal: what holds at every point of a micro-operation. -/
structure Running (s : State) : Prop extends RegistersOk s where
  decoder : hasInstance s = true

section
variable {s t : State}

theorem Legal.running (h : Legal s) (hm : s.mode = .busy) : Running s := by
  obtain ⟨hr, hmode⟩ := (legal_iff s).1 h
  exact ⟨hr, hmode.live (.inr hm)⟩

/-- With a decoder the clause on cleared registers says nothing. -/
theorem Running.of_live (hsp : SpacesOk s) (hi : hasInstance s = true)
    (hl : LatchedOk s.latched ∧ s.latched.startPos ≤ s.pos ∧ s.pos ≤ s.src.len) (hb : BlockPosOk s) (hima : ImaOk s)
    (hms : MsOk s) : Running s :=
  ⟨⟨hsp, fun _ => hl, fun hno => absurd (hi.symm.trans hno) (by decide), hb, hima, hms⟩, hi⟩

theorem Running.afterReads (h : Running s) (n : Nat) : Running (afterReads n s) := by
  obtain ⟨hl, hstart, hpos⟩ := h.live h.decoder
  refine .of_live h.spaces h.decoder ⟨hl, ?_, ?_⟩ h.block h.ima h.ms
  · show s.latched.startPos ≤ s.pos + min n (s.src.len - s.pos)
    omega
  · show s.pos + min n (s.src.len - s.pos) ≤ s.src.len
    omega

theorem Running.setIma (h : Running s) {c : Chan} {v : ImaChan} (hv : ImaChanOk s.latched.variant c v) :
    Running (setIma c v s) :=
  .of_live h.spaces h.decoder (h.live h.decoder) h.block (forall_get_set ((imaOk_iff s).1 h.ima) hv) h.ms

theorem Running.setMs (h : Running s) {c : Chan} {v : MsChan} (hv : MsChanOk v) : Running (setMs c v s) :=
  .of_live h.spaces h.decoder (h.live h.decoder) h.block h.ima
    (forall_get_set (Q := fun _ => MsChanOk) ((msOk_iff s).1 h.ms) hv)

theorem Running.setOut (h : Running s) (i : Nat) (v : Sample) : Running (setOut i v s) := by
  obtain ⟨hc, ho, hlt, hp⟩ := h.spaces
  exact .of_live ⟨hc, cellsWf_cellWrite ho i v, hlt, hp⟩ h.decoder (h.live h.decoder) h.block h.ima h.ms

theorem Running.addCount (h : Running s) (k : U32) : Running (addCount k s) :=
  .of_live h.spaces h.decoder (h.live h.decoder) h.block h.ima h.ms

theorem Running.withImaOut (h : Running s) {p : PerChan ImaChan} {o : OutSpace} (ho : cellsWf o)
    (hp : ∀ c, ImaChanOk s.latched.variant c (p.get c)) : Running (withImaOut p o s) := by
  obtain ⟨hc, -, hlt, hpos⟩ := h.spaces
  exact .of_live ⟨hc, ho, hlt, hpos⟩ h.decoder (h.live h.decoder) h.block hp h.ms

/-- Where a block counter of a blocked variant may stand (R30). -/
theorem Running.setBlockPos (h : Running s) {v : U32} (hle : v.toNat ≤ s.latched.blockAlign.toNat)
    (hlo : (s.latched.variant = .msima1 ∧ 4 ≤ v.toNat) ∨
      (s.latched.variant = .msadpcm ∧ 7 * s.latched.channels.toNat ≤ v.toNat)) : Running (setBlockPos v s) := by
  obtain ⟨hch1, -, -⟩ := h.block h.decoder
  refine .of_live h.spaces h.decoder (h.live h.decoder) (fun _ => ⟨hch1, hle, ?_⟩) h.ima h.ms
  obtain ⟨hv, hlo⟩ | ⟨hv, hlo⟩ := hlo <;> simpa [hv] using hlo

/-- A payload byte's count stays inside the block (R152, R185). -/
theorem Running.countByte (h : Running s) (hne : s.blockPos.ch0 ≠ s.latched.blockAlign)
    (hv : s.latched.variant = .msima1 ∨ s.latched.variant = .msadpcm) :
    Running (Machine.setBlockPos (s.blockPos.ch0 + 1) s) := by
  obtain ⟨-, hle, hlo⟩ := h.block h.decoder
  have hlt := s.latched.blockAlign.isLt
  have hne' : s.blockPos.ch0.toNat ≠ s.latched.blockAlign.toNat := fun he => hne (BitVec.eq_of_toNat_eq he)
  have hsucc : (s.blockPos.ch0 + 1).toNat = s.blockPos.ch0.toNat + 1 := by
    rw [BitVec.toNat_add]
    exact Nat.mod_eq_of_lt (by show s.blockPos.ch0.toNat + 1 < 2 ^ 32; omega)
  refine h.setBlockPos (by omega) (hv.imp (fun hv => ⟨hv, ?_⟩) fun hv => ⟨hv, ?_⟩)
  all_goals
    simp only [hv] at hlo
    omega

/-! ### Every micro-operation keeps the invariant -/

theorem Running.legal_raise (h : Running s) (code : FaultCode) : Legal (raise code s) :=
  h.toRegistersOk.legal_raise code

theorem requestUnit_cases (v : Variant) : requestUnit v = 2 ∨ requestUnit v = 16 := by
  unfold requestUnit
  split <;> simp

/-- A READ that does not exit has room for one unit's samples (R104, R106). -/
theorem room_of_legal (h : Legal s) (hm : s.mode = .busy) (hl : loopExit s = false) :
    s.outCount.toNat + requestUnit s.latched.variant ≤ s.reqN.toNat := by
  obtain ⟨-, hn, hs⟩ := ((legal_iff s).1 h).2.request.1 hm
  have hlt : s.outCount.toNat < s.reqN.toNat := by
    by_contra hge
    simp [loopExit, Nat.not_lt.1 hge] at hl
  obtain hu | hu := requestUnit_cases s.latched.variant <;> rw [hu] at hn hs ⊢ <;> omega

/-- `t` is `s` after a micro-operation that completed with `k` samples written, as far as MODE and the request go. -/
def Progress (k : U32) (s t : State) : Prop :=
  t.mode = s.mode ∧ t.faultCode = s.faultCode ∧ t.latched = s.latched ∧ t.reqN = s.reqN ∧ t.outCount = s.outCount + k

theorem legal_of_progress {k : U32} (hp : Progress k s t) (ht : Running t) (h : Legal s) (hm : s.mode = .busy)
    (hk : k.toNat % requestUnit s.latched.variant = 0) (hroom : s.outCount.toNat + k.toNat ≤ s.reqN.toNat) :
    Legal t := by
  obtain ⟨hmode, hf, hlat, hn, hcount⟩ := hp
  obtain ⟨-, hmodes⟩ := (legal_iff s).1 h
  obtain ⟨-, hN, hS⟩ := hmodes.request.1 hm
  have hlt := s.reqN.isLt
  have hadd : t.outCount.toNat = s.outCount.toNat + k.toNat := by
    rw [hcount, BitVec.toNat_add]
    exact Nat.mod_eq_of_lt (by omega)
  have hfault : FaultOk t := by
    rw [FaultOk, hmode, hf]
    exact hmodes.fault
  rw [hm] at hmode
  refine (legal_iff t).2
    ⟨ht.toRegistersOk, ⟨hfault, fun _ => ht.decoder, by simp [hmode], ⟨fun _ => ?_, by simp [hmode]⟩⟩⟩
  rw [hadd, hn, hlat, Nat.add_mod, hS, hk]
  exact ⟨hroom, hN, by simp⟩

theorem legal_finishRead (h : Legal s) (hm : s.mode = .busy) : Legal (finishRead s) := by
  obtain ⟨hr, hmode⟩ := (legal_iff s).1 h
  have hf : s.faultCode = 0 := faultCode_eq_zero hmode.fault (by simp [hm])
  exact (legal_iff _).2 ⟨hr.withControl ..,
    modeOk_idle hf rfl rfl (.inl ⟨rfl, hmode.live (.inr hm)⟩)⟩

theorem stepIndexOk_of_legal (h : Legal s) (hv : s.latched.variant ≠ .msima1) (c : Chan) :
    stepIndexOk (s.ima.get c) = true := by
  obtain ⟨-, -, -, -, hok⟩ := ((legal_iff s).1 h).1.ima c
  exact hok (.inl hv)

theorem legal_imaByte (h : Legal s) (hm : s.mode = .busy) (hl : loopExit s = false) (hv : s.latched.variant = .ima) :
    Legal (imaByte s).state := by
  have hroom := room_of_legal h hm hl
  have hok := stepIndexOk_of_legal h (by simp [hv])
  simp only [hv, requestUnit, reduceCtorEq, if_false] at hroom
  have hread := (h.running hm).afterReads 1
  by_cases hch : s.latched.channels = 2
  case' pos => rw [imaByte_stereo hch (hok .c0) (hok .c1) hroom, state_done]
  case' neg => rw [imaByte_mono hch (hok .c0) hroom, state_done]
  all_goals
    refine legal_of_progress (k := 2) (by simp [Progress]) ?_ h hm (by simp [hv, requestUnit]) hroom
    exact .addCount (.setOut (.setIma (.setOut (.setIma hread (imaChanOk_imaNext ..)) ..) (imaChanOk_imaNext ..)) ..) _

theorem legal_msimaHdr (h : Legal s) (hm : s.mode = .busy) (hl : loopExit s = false)
    (hv : s.latched.variant = .msima1) : Legal (msimaHdr s) := by
  have hroom := room_of_legal h hm hl
  have hrun := h.running hm
  obtain ⟨⟨-, -, hlat⟩, -⟩ := hrun.live hrun.decoder
  simp only [hv] at hlat
  obtain ⟨-, -, h4⟩ := hlat
  have hima : ImaChanOk s.latched.variant .c0 ⟨(wireField s 0).signExtend 32, (wireField s 2).signExtend 32⟩ := by
    rw [hv]
    exact imaChanOk_header _ _
  rw [msimaHdr_eq]
  refine legal_of_progress (k := 0) (by simp [Progress]) ?_ h hm (Nat.zero_mod _) (Nat.le_of_add_right_le hroom)
  exact .setBlockPos (.setIma (hrun.afterReads 4) hima) h4 (.inl ⟨hv, Nat.le_refl _⟩)

theorem legal_msimaByte (h : Legal s) (hm : s.mode = .busy) (hl : loopExit s = false)
    (hv : s.latched.variant = .msima1) (hne : s.blockPos.ch0 ≠ s.latched.blockAlign) : Legal (msimaByte s).state := by
  have hroom := room_of_legal h hm hl
  simp only [hv, requestUnit, reduceCtorEq, if_false] at hroom
  have hread : Running (setBlockPos (s.blockPos.ch0 + 1) (afterReads 1 s)) :=
    ((h.running hm).afterReads 1).countByte hne (.inl hv)
  cases hok : stepIndexOk s.ima.ch0
  · rw [msimaByte_fault hok]
    exact hread.legal_raise _
  · rw [msimaByte_ok hok hroom, state_done]
    refine legal_of_progress (k := 2) (by simp [Progress]) ?_ h hm (by simp [hv, requestUnit]) hroom
    exact .addCount (.setOut (.setIma (.setOut (.setIma hread (imaChanOk_imaNext ..)) ..) (imaChanOk_imaNext ..)) ..) _

theorem legal_msimaGroup (h : Legal s) (hm : s.mode = .busy) (hl : loopExit s = false)
    (hv : s.latched.variant = .msima2) : Legal (msimaGroup s).state := by
  have hroom := room_of_legal h hm hl
  have hok := stepIndexOk_of_legal h (by simp [hv])
  have hrun := h.running hm
  simp only [hv, requestUnit, if_true] at hroom
  obtain ⟨o, he, ho, -, -⟩ := msimaGroup_ok s (hok .c0) (hok .c1) hrun.spaces.2.1 hroom
  have hima : ∀ c, ImaChanOk s.latched.variant c ((⟨imaAfter (groupCodes (groupWordAt s .c0)) s.ima.ch0,
      imaAfter (groupCodes (groupWordAt s .c1)) s.ima.ch1⟩ : PerChan ImaChan).get c)
    | .c0 => imaChanOk_imaAfter _ (hrun.ima .c0)
    | .c1 => imaChanOk_imaAfter _ (hrun.ima .c1)
  rw [he, state_done]
  refine legal_of_progress (k := 16) (by simp [Progress]) ?_ h hm (by simp [hv, requestUnit]) hroom
  exact .addCount (.withImaOut (hrun.afterReads 8) ho hima) _

theorem legal_msadpcmHdr (h : Legal s) (hm : s.mode = .busy) (hl : loopExit s = false)
    (hv : s.latched.variant = .msadpcm) : Legal (msadpcmHdr .doc s).state := by
  have hroom := room_of_legal h hm hl
  simp only [hv, requestUnit, reduceCtorEq, if_false] at hroom
  have hrun := h.running hm
  obtain ⟨⟨hch, -, hlat⟩, -⟩ := hrun.live hrun.decoder
  simp only [hv] at hlat
  obtain ⟨-, hblock⟩ := hlat
  obtain hch | hch := hch <;> rw [hch] at hblock
  · rw [msadpcmHdr_mono hch hroom, state_done]
    refine legal_of_progress (k := 2) (by simp [Progress]) ?_ h hm (by simp [hv, requestUnit]) hroom
    refine .setBlockPos (.addCount (.setOut (.setOut (.setMs (hrun.afterReads 7) ?_) ..) ..) _) hblock (.inr ⟨hv, ?_⟩)
    · exact msChanOk_headerChan ..
    · simp [hch]
  by_cases hfit : s.outCount.toNat + 4 ≤ s.reqN.toNat
  · rw [msadpcmHdr_stereo hch hfit, state_done]
    refine legal_of_progress (k := 4) (by simp [Progress]) ?_ h hm (by simp [hv, requestUnit]) hfit
    refine .setBlockPos (.addCount (.setOut (.setOut (.setOut (.setOut (.setMs (.setMs (hrun.afterReads 14) ?_) ?_)
      ..) ..) ..) ..) _) hblock (.inr ⟨hv, ?_⟩)
    · exact msChanOk_headerChan ..
    · exact msChanOk_headerChan ..
    · simp [hch]
  · rw [msadpcmHdr_fault (by rw [hch]; show _ < _ + 2 * 2; omega)]
    exact hrun.legal_raise _

/-- A decode either overflows, with a 32-bit delta, or goes through (R184). -/
theorem msOverflow_cases (bits : DeltaBits) (code : Code) (v : MsChan) :
    (bits = .bits32 ∧ msOverflow code v = true) ∨ (bits = .bits32 → msOverflow code v = false) := by
  cases bits <;> cases msOverflow code v <;> simp

theorem legal_msadpcmByte (h : Legal s) (hm : s.mode = .busy) (hl : loopExit s = false)
    (hv : s.latched.variant = .msadpcm) (hne : s.blockPos.ch0 ≠ s.latched.blockAlign) :
    Legal (msadpcmByte Config.msDeltaBits s).state := by
  have hroom := room_of_legal h hm hl
  simp only [hv, requestUnit, reduceCtorEq, if_false] at hroom
  have hrun := h.running hm
  have hread : Running (setBlockPos (s.blockPos.ch0 + 1) (afterReads 1 s)) :=
    (hrun.afterReads 1).countByte hne (.inr hv)
  obtain ⟨hb, h0⟩ | h0 := msOverflow_cases Config.msDeltaBits (hiNibble (wireByte s 0)) s.ms.ch0
  · rw [hb, msadpcmByte_fault_first h0]
    exact hread.legal_raise _
  have hms0 : MsChanOk (msNext Config.msDeltaBits (hiNibble (wireByte s 0)) s.ms.ch0) :=
    msChanOk_msNext (hrun.ms .c0) h0
  obtain ⟨hb, h1⟩ | h1 := msOverflow_cases Config.msDeltaBits (loNibble (wireByte s 0))
    (if s.latched.channels = 2 then s.ms.ch1 else msNext Config.msDeltaBits (hiNibble (wireByte s 0)) s.ms.ch0)
  · rw [hb] at h1 hms0
    rw [hb, msadpcmByte_fault_second (h0 hb) (by omega) h1]
    exact Running.legal_raise (.setOut (.setMs hread hms0) ..) _
  by_cases hch : s.latched.channels = 2
  · rw [if_pos hch] at h1
    rw [msadpcmByte_stereo hch h0 h1 hroom, state_done]
    refine legal_of_progress (k := 2) (by simp [Progress]) ?_ h hm (by simp [hv, requestUnit]) hroom
    exact .addCount (.setOut (.setMs (.setOut (.setMs hread hms0) ..) (msChanOk_msNext (hrun.ms .c1) h1)) ..) _
  · rw [if_neg hch] at h1
    rw [msadpcmByte_mono hch h0 h1 hroom, state_done]
    refine legal_of_progress (k := 2) (by simp [Progress]) ?_ h hm (by simp [hv, requestUnit]) hroom
    exact .addCount (.setOut (.setMs (.setOut (.setMs hread hms0) ..) (msChanOk_msNext hms0 h1)) ..) _

theorem legal_step_busy (h : Legal s) (hm : s.mode = .busy) (he : step s = .next t) : Legal t := by
  obtain ⟨-, rfl⟩ | ⟨hl, hunit⟩ := step_busy_cases hm he
  · exact legal_finishRead h hm
  obtain ⟨hv, rfl⟩ | ⟨hv, -, rfl⟩ | ⟨hv, hne, rfl⟩ | ⟨hv, rfl⟩ | ⟨hv, -, rfl⟩ | ⟨hv, hne, rfl⟩ := hunit
  · exact legal_imaByte h hm hl hv
  · exact legal_msimaHdr h hm hl hv
  · exact legal_msimaByte h hm hl hv hne
  · exact legal_msimaGroup h hm hl hv
  · exact legal_msadpcmHdr h hm hl hv
  · exact legal_msadpcmByte h hm hl hv hne

end

/-- Settles O45: in `BUSY` micro-operation by micro-operation, else by what a host action can do. -/
theorem stepKeepsLegal : Obligations.StepKeepsLegal := by
  intro s t h he
  by_cases hm : s.mode = .busy
  · exact legal_step_busy h hm he
  · exact legal_of_hostEffect h (step_host_effect hm he)

end Sys2Proof.Machine

namespace Sys2Proof.Machine

/-! ### The reset state and the tables -/

/-- Settles O16, field by field and register by register. -/
theorem resetRegisterValues : Obligations.ResetRegisterValues := by
  refine ⟨rfl, fun r => ?_, rfl, rfl, rfl, rfl, rfl, rfl, rfl⟩
  cases r with
  | arg a => cases a <;> rfl
  | cmd | status | result => rfl

/-- Settles O44: nothing is bound and no decoder lives. -/
theorem resetIsLegal : Obligations.ResetIsLegal := by
  have hspaces : SpacesOk State.reset := ⟨reset_memory_wf.1, reset_memory_wf.2, by simp [State.reset], Nat.le_refl _⟩
  exact (legal_iff _).2 ⟨registersOk_cleared hspaces rfl rfl rfl rfl rfl rfl, modeOk_idle rfl rfl rfl (.inr ⟨rfl, rfl⟩)⟩

/-- Settles O28: the entries are those of R40 and R41, and the order is a finite check. -/
theorem imaTablesShape : Obligations.ImaTablesShape :=
  ⟨rfl, rfl, by decide, rfl, rfl, rfl⟩

/-- Settles O57: the entries are those of R42 and R43. -/
theorem msTableEntries : Obligations.MsTableEntries := ⟨rfl, rfl, rfl⟩

/-! ### The host registers -/

theorem step_of_idle {s : State} (hm : s.mode ≠ .busy) (hh : s.host = []) : step s = .next s := by
  simp only [step, hm, if_false, hostTurn, hh]

theorem step_of_writeArg {s : State} {r : ArgReg} {v : U32} {rest : List HostAction} (hm : s.mode ≠ .busy)
    (hh : s.host = .writeArg r v :: rest) : step s = .next (setArg r v { s with host := rest }) := by
  simp only [step, hm, if_false, hostTurn, hh, hostAction]

theorem argValue_setArg_same (r : ArgReg) (v : U32) (s : State) : argValue r (setArg r v s).args = v := by
  cases r <;> rfl

theorem argValue_setArg_other {r q : ArgReg} (h : q ≠ r) (v : U32) (s : State) :
    argValue q (setArg r v s).args = argValue q s.args := by
  cases r <;> cases q <;> simp [setArg, argValue] at h ⊢

/-- `STATUS` reads no argument register and nothing of the host's list (R23). -/
theorem statusWord_setArg (r : ArgReg) (v : U32) (rest : List HostAction) (s : State) :
    statusWord (setArg r v { s with host := rest }) = statusWord s := rfl

/-- Settles O12: `setArg` writes one argument register, and `STATUS` reads none of them. -/
theorem argumentRegisterWrites : Obligations.ArgumentRegisterWrites := by
  intro s hm
  refine ⟨step_of_idle hm, fun r v rest hh => ⟨_, step_of_writeArg hm hh, argValue_setArg_same r v _, ?_, rfl⟩⟩
  intro q hq
  cases q with
  | arg a => exact argValue_setArg_other (fun ha => hq (congrArg HostReg.arg ha)) v _
  | status => exact statusWord_setArg r v rest s
  | cmd | result => rfl

theorem statusCfg_eq (s : State) : statusCfg s = decide (s.mode = .ready ∨ s.mode = .busy) := by
  unfold statusCfg
  cases s.mode <;> rfl

theorem statusFlt_eq (s : State) : statusFlt s = decide (s.mode = .faulted) := by
  unfold statusFlt
  cases s.mode <;> rfl

theorem statusFaultCode_toNat (s : State) :
    (statusFaultCode s).toNat = if s.mode = .faulted then s.faultCode.toNat else 0 := by
  simp only [statusFaultCode, statusFlt_eq, decide_eq_true_eq]
  split <;> rfl

/-- The fields of `STATUS`, cut out of its value (R23). -/
theorem statusWord_fields (s : State) :
    (statusWord s).toNat / 2 ^ 0 % 2 = (statusCfg s).toNat ∧ (statusWord s).toNat / 2 ^ 1 % 2 = (statusFlt s).toNat ∧
    (statusWord s).toNat / 2 ^ 2 % 2 = (statusEod s).toNat ∧ (statusWord s).toNat / 2 ^ 3 % 2 = (statusStereo s).toNat ∧
    (statusWord s).toNat / 16 % 16 = (statusVariant s).toNat ∧
    (statusWord s).toNat / 256 % 256 = (statusFaultCode s).toNat ∧ (statusWord s).toNat / 65536 = 0 := by
  have hcfg := (statusCfg s).toNat_le
  have hflt := (statusFlt s).toNat_le
  have heod := (statusEod s).toNat_le
  have hstereo := (statusStereo s).toNat_le
  have hvariant := (statusVariant s).isLt
  have hcode := (statusFaultCode s).isLt
  rw [statusWord_toNat]
  omega

theorem getLsbD_of_toNat {w i : Nat} {x : BitVec w} {b : Bool} (h : x.toNat / 2 ^ i % 2 = b.toNat) :
    x.getLsbD i = b := by
  rw [BitVec.getLsbD, Nat.testBit_eq_decide_div_mod_eq, h]
  cases b <;> rfl

/-- Settles O17, each field cut out of the value `statusWord_toNat` gives. -/
theorem statusRegisterFields : Obligations.StatusRegisterFields := by
  refine ⟨fun s => ?_, fun s r v rest hm hh => ⟨_, step_of_writeArg hm hh, statusWord_setArg r v rest s⟩⟩
  obtain ⟨hcfg, hflt, heod, hstereo, hvariant, hfault, hzero⟩ := statusWord_fields s
  rw [← statusCfg_eq]
  refine ⟨getLsbD_of_toNat hcfg, (getLsbD_of_toNat hflt).trans (statusFlt_eq s), getLsbD_of_toNat heod,
    (getLsbD_of_toNat hstereo).trans ?_, hvariant.trans ?_, hfault.trans (statusFaultCode_toNat s), hzero⟩
  · rw [statusStereo, beq_eq_decide]
  · rw [statusVariant]
    cases statusCfg s
    · rfl
    · cases s.latched.variant <;> rfl

/-! ### What micro-operations keep -/

theorem imaClosed_blockPos (lo : Nat) (s : State) : ImaClosed lo (fun t => t.blockPos = s.blockPos) :=
  ⟨fun _ _ h => h, fun _ _ _ h => h, fun _ _ _ _ _ h => h, fun _ _ h => h, fun _ _ h => h⟩

theorem imaClosed_ms (lo : Nat) (s : State) : ImaClosed lo (fun t => t.ms = s.ms) :=
  ⟨fun _ _ h => h, fun _ _ _ h => h, fun _ _ _ _ _ h => h, fun _ _ h => h, fun _ _ h => h⟩

theorem msClosed_ima (lo : Nat) (s : State) : MsClosed lo (fun t => t.ima = s.ima) :=
  ⟨⟨fun _ _ h => h, fun _ _ _ h => h⟩, fun _ _ _ _ _ h => h, fun _ _ h => h, fun _ _ h => h, fun _ _ h => h⟩

/-- What the nibble primitives leave besides the frame of every micro-operation (R132, R184). -/
def PrimitiveFrame (s t : State) : Prop :=
  t.blockPos = s.blockPos ∧ t.pos = s.pos ∧ t.eosFlag = s.eosFlag ∧ t.out = s.out

theorem decodeIma_frame (code : Code) (c : Chan) (s : State) : PrimitiveFrame s (decodeIma code c s).state :=
  decodeIma_state (fun _ => ⟨rfl, rfl, rfl, rfl⟩) fun _ => ⟨rfl, rfl, rfl, rfl⟩

theorem decodeMs_frame (bits : DeltaBits) (c : Chan) (code : Code) (s : State) :
    PrimitiveFrame s (decodeMs bits c code s).state :=
  decodeMs_state (fun _ => ⟨rfl, rfl, rfl, rfl⟩) fun _ => ⟨rfl, rfl, rfl, rfl⟩

theorem unblocked_keeps_blockPos {i : Instr} {s t : State} (hi : i ∈ [Instr.imaByte, .msimaGroup])
    (he : exec i s = .next t) : t.blockPos = s.blockPos := by
  simp only [List.mem_cons, List.not_mem_nil, or_false] at hi
  obtain rfl | rfl := hi <;> obtain rfl := next_inj he
  · exact imaByte_state (imaClosed_blockPos _ s) rfl
  · exact msimaGroup_state (imaClosed_blockPos _ s) rfl

/-- Settles O55: the frame is kept by every update a micro-operation is made of. -/
theorem microOperationFrame : Obligations.MicroOperationFrame := by
  intro i s t hi he
  obtain ⟨hcmd, hres, hargs, hlat, hblk, hsrc, hev, hhost, hmode⟩ :=
    exec_micro_state (microFrame_closed s) (microFrame_refl s) hi he
  refine ⟨hcmd, hres, hargs, hlat, hblk, hsrc, hev, hhost, hmode, fun hu => unblocked_keeps_blockPos hu he, ?_⟩
  rintro (⟨code, c, rfl⟩ | ⟨c, code, rfl⟩) <;> obtain rfl := next_inj he
  · exact decodeIma_frame code c s
  · exact decodeMs_frame _ c code s

/-! ### The two families are separate -/

theorem emitIma_keeps_ch1 (i : Nat) (code : Code) (s : State) : (emitIma i code .c0 s).state.ima.ch1 = s.ima.ch1 := by
  have hdec : (decodeIma code .c0 s).state.ima.ch1 = s.ima.ch1 :=
    decodeIma_state (P := fun t => t.ima.ch1 = s.ima.ch1) (fun _ => rfl) fun _ => rfl
  refine andThen_state (P := fun t => t.ima.ch1 = s.ima.ch1) hdec fun v t ht => ?_
  unfold outWrite
  split <;> exact ht

theorem msimaByte_keeps_ch1 (s : State) : (msimaByte s).state.ima.ch1 = s.ima.ch1 := by
  rw [msimaByte, srcReadByte_snd]
  refine andThen_state (P := fun t => t.ima.ch1 = s.ima.ch1) (emitIma_keeps_ch1 _ _ _) fun _ t ht => ?_
  exact andThen_state (P := fun t => t.ima.ch1 = s.ima.ch1) ((emitIma_keeps_ch1 _ _ t).trans ht) fun _ u hu => hu

theorem imaFamily_keeps_ms {i : Instr} {s t : State}
    (hi : i ∈ [Instr.imaByte, .msimaHdr, .msimaByte, .msimaGroup] ∨ ∃ code c, i = .decodeIma code c)
    (he : exec i s = .next t) : t.ms = s.ms := by
  simp only [List.mem_cons, List.not_mem_nil, or_false] at hi
  obtain (rfl | rfl | rfl | rfl) | ⟨code, c, rfl⟩ := hi <;> obtain rfl := next_inj he
  · exact imaByte_state (imaClosed_ms _ s) rfl
  · exact msimaHdr_state (imaClosed_ms 0 s) (fun _ _ h => h) rfl
  · exact msimaByte_state (imaClosed_ms _ s) (fun _ _ h => h) rfl
  · exact msimaGroup_state (imaClosed_ms _ s) rfl
  · exact decodeIma_state (P := fun t => t.ms = s.ms) (fun _ => rfl) fun _ => rfl

theorem msFamily_keeps_ima {i : Instr} {s t : State}
    (hi : i ∈ [Instr.msadpcmHdr, .msadpcmByte] ∨ ∃ c code, i = .decodeMs c code)
    (he : exec i s = .next t) : t.ima = s.ima := by
  simp only [List.mem_cons, List.not_mem_nil, or_false] at hi
  obtain (rfl | rfl) | ⟨c, code, rfl⟩ := hi <;> obtain rfl := next_inj he
  · exact msadpcmHdr_state (msClosed_ima _ s) _ rfl
  · exact msadpcmByte_state (msClosed_ima _ s) _ rfl
  · exact decodeMs_state (P := fun t => t.ima = s.ima) (fun _ => rfl) fun _ => rfl

theorem msima1_keeps_ch1 {i : Instr} {s t : State} (hi : i ∈ [Instr.msimaHdr, .msimaByte])
    (he : exec i s = .next t) : t.ima.ch1 = s.ima.ch1 := by
  simp only [List.mem_cons, List.not_mem_nil, or_false] at hi
  obtain rfl | rfl := hi <;> obtain rfl := next_inj he
  · rw [msimaHdr_eq]
    rfl
  · exact msimaByte_keeps_ch1 s

/-- Settles O54, family by family. -/
theorem familiesAreSeparate : Obligations.FamiliesAreSeparate := fun _ _ =>
  ⟨fun _ => imaFamily_keeps_ms, fun _ => msFamily_keeps_ima, fun _ => msima1_keeps_ch1⟩

/-! ### What changes the configuration and RESULT -/

/-- Settles O51, over everything a step can do. -/
theorem configurationOnlyLatched : Obligations.ConfigurationOnlyLatched := by
  intro s t he hne
  by_cases hm : s.mode = .busy
  · obtain rfl | ⟨-, -, -, hlat, -⟩ := step_busy_frame hm he
    · exact absurd rfl hne
    · exact absurd hlat hne
  cases step_host_effect hm he with
  | idle | argWritten | sourceBound | outBound => exact absurd rfl hne
  | @command w rest _ hh hc =>
    cases hc with
    | configured hd hmode => exact .inl ⟨w, rest, hh, hd, hmode, rfl⟩
    | released hd hmode => exact .inr (.inl ⟨w, rest, hh, hd, hmode, rfl⟩)
    | ignored | raised | started | rewound | queried => exact absurd rfl hne
  | @resetDone rest hh => exact .inr (.inr ⟨hm, rest, hh⟩)

/-- A command that writes `RESULT` completes (R24, R212). -/
theorem result_of_cmdEffect {d : Decoded} {s t : State} (h : CmdEffect d s t) :
    t.result = s.result ∨ t.mode = .ready ∨ t.mode = .unconfigured := by
  cases h with
  | ignored | raised | started => exact .inl rfl
  | configured => exact .inr (.inl rfl)
  | rewound hm | queried _ hm => exact .inr (.inl hm)
  | released => exact .inr (.inr rfl)

/-- A step that writes `RESULT` is the end of a READ, a command that completes, or hardware reset (R24). -/
theorem result_of_step {s t : State} (he : step s = .next t) :
    t.result = s.result ∨ ((t.mode = .ready ∨ t.mode = .unconfigured) ∧
      (s.mode = .busy ∨ ∃ a rest, s.host = a :: rest ∧ (a = .hardwareReset ∨ ∃ w, a = .writeCmd w))) := by
  by_cases hm : s.mode = .busy
  · obtain rfl | ⟨-, hres, -⟩ := step_busy_frame hm he
    · exact .inr ⟨.inl rfl, .inl hm⟩
    · exact .inl hres
  cases step_host_effect hm he with
  | idle | argWritten | sourceBound | outBound => exact .inl rfl
  | command hh hc => exact (result_of_cmdEffect hc).imp id fun hmode => ⟨hmode, .inr ⟨_, _, hh, .inr ⟨_, rfl⟩⟩⟩
  | resetDone hh => exact .inr ⟨.inr rfl, .inr ⟨_, _, hh, .inl rfl⟩⟩

/-- Settles O53: a step that writes `RESULT` ends in `READY` or `UNCONFIGURED`, so not in `FAULTED`. -/
theorem resultOnlyOnCompletion : Obligations.ResultOnlyOnCompletion := by
  intro s t he
  obtain hres | ⟨hmode, hcause⟩ := result_of_step he
  · exact ⟨fun _ => hres, fun hne => absurd hres hne⟩
  · refine ⟨fun hf => ?_, fun _ => ⟨hmode, hcause⟩⟩
    simp [hf] at hmode

end Sys2Proof.Machine

namespace Sys2Proof.Machine

/-! ### CMD, RESULT and the history influence nothing -/

/-- What the machine only reports: `CMD`, `RESULT` and the history of events (R24, R26, R113). -/
structure Reports where
  cmd : U32
  result : U32
  events : List Event

/-- `s` with these reports. -/
def withReports (ρ : Reports) (s : State) : State := { s with cmd := ρ.cmd, result := ρ.result, events := ρ.events }

theorem sameButReports_iff {s t : State} : SameButReports s t ↔ ∃ ρ, t = withReports ρ s := by
  constructor
  · exact fun h => ⟨⟨t.cmd, t.result, t.events⟩, h⟩
  · rintro ⟨ρ, rfl⟩
    rfl

/-- The answer with the state it leaves changed. -/
def Res.mapState {α : Type} (f : State → State) : Res α → Res α
  | .done v s => .done v (f s)
  | .raised s => .raised (f s)

section
variable (ρ : Reports) (s : State)

/-! The fields a micro-operation reads, and the updates it makes, are blind to the reports. -/

@[simp] theorem withReports_mode : (withReports ρ s).mode = s.mode := rfl
@[simp] theorem withReports_args : (withReports ρ s).args = s.args := rfl
@[simp] theorem withReports_host : (withReports ρ s).host = s.host := rfl
@[simp] theorem withReports_ima : (withReports ρ s).ima = s.ima := rfl
@[simp] theorem withReports_ms : (withReports ρ s).ms = s.ms := rfl
@[simp] theorem withReports_latched : (withReports ρ s).latched = s.latched := rfl
@[simp] theorem withReports_blockPos : (withReports ρ s).blockPos = s.blockPos := rfl
@[simp] theorem withReports_reqN : (withReports ρ s).reqN = s.reqN := rfl
@[simp] theorem withReports_outCount : (withReports ρ s).outCount = s.outCount := rfl
@[simp] theorem lastChan_withReports : lastChan (withReports ρ s) = lastChan s := rfl
@[simp] theorem channelList_withReports : channelList (withReports ρ s) = channelList s := rfl
@[simp] theorem wireByte_withReports (k : Nat) : wireByte (withReports ρ s) k = wireByte s k := rfl
@[simp] theorem wireField_withReports (k : Nat) : wireField (withReports ρ s) k = wireField s k := rfl
@[simp] theorem afterReads_withReports (n : Nat) :
    afterReads n (withReports ρ s) = withReports ρ (afterReads n s) := rfl
@[simp] theorem setIma_withReports (c : Chan) (v : ImaChan) :
    setIma c v (withReports ρ s) = withReports ρ (setIma c v s) := rfl
@[simp] theorem setMs_withReports (c : Chan) (v : MsChan) :
    setMs c v (withReports ρ s) = withReports ρ (setMs c v s) := rfl
@[simp] theorem setOut_withReports (i : Nat) (v : Sample) :
    setOut i v (withReports ρ s) = withReports ρ (setOut i v s) := rfl
@[simp] theorem setBlockPos_withReports (v : U32) :
    setBlockPos v (withReports ρ s) = withReports ρ (setBlockPos v s) := rfl
@[simp] theorem addCount_withReports (k : U32) :
    addCount k (withReports ρ s) = withReports ρ (addCount k s) := rfl
@[simp] theorem raise_withReports (code : FaultCode) :
    raise code (withReports ρ s) = withReports ρ (raise code s) := rfl

/-! Each part of a micro-operation carries the reports through. -/

theorem andThen_withReports {α β : Type} {r r' : Res α} {f g : α → State → Res β}
    (hr : r' = r.mapState (withReports ρ)) (hf : ∀ v t, g v (withReports ρ t) = (f v t).mapState (withReports ρ)) :
    r'.andThen g = (r.andThen f).mapState (withReports ρ) := by
  subst hr
  cases r with
  | done v t => exact hf v t
  | raised t => rfl

theorem outWrite_withReports (i : Nat) (v : Sample) :
    outWrite i v (withReports ρ s) = (outWrite i v s).mapState (withReports ρ) := by
  simp only [outWrite, withReports_reqN, apply_ite (Res.mapState (withReports ρ))]
  rfl

theorem decodeIma_withReports (code : Code) (c : Chan) :
    decodeIma code c (withReports ρ s) = (decodeIma code c s).mapState (withReports ρ) := by
  simp only [decodeIma, withReports_ima, apply_ite (Res.mapState (withReports ρ))]
  rfl

theorem emitIma_withReports (i : Nat) (code : Code) (c : Chan) :
    emitIma i code c (withReports ρ s) = (emitIma i code c s).mapState (withReports ρ) :=
  andThen_withReports ρ (decodeIma_withReports ρ s code c) fun v t => outWrite_withReports ρ t i v

theorem imaByte_withReports : imaByte (withReports ρ s) = (imaByte s).mapState (withReports ρ) := by
  simp only [imaByte, srcReadByte_fst, srcReadByte_snd, wireByte_withReports, afterReads_withReports,
    withReports_outCount, lastChan_withReports]
  refine andThen_withReports ρ (emitIma_withReports ..) fun _ t => ?_
  exact andThen_withReports ρ (emitIma_withReports ..) fun _ u => rfl

theorem msimaHdr_withReports : msimaHdr (withReports ρ s) = withReports ρ (msimaHdr s) := by
  simp only [msimaHdr_eq, wireField_withReports, afterReads_withReports, setIma_withReports, setBlockPos_withReports]

theorem msimaByte_withReports : msimaByte (withReports ρ s) = (msimaByte s).mapState (withReports ρ) := by
  simp only [msimaByte, srcReadByte_fst, srcReadByte_snd, wireByte_withReports, afterReads_withReports,
    withReports_outCount, withReports_blockPos, setBlockPos_withReports]
  refine andThen_withReports ρ (emitIma_withReports ..) fun _ t => ?_
  exact andThen_withReports ρ (emitIma_withReports ..) fun _ u => rfl

theorem emitNibbles_withReports (c : Chan) (w : U32) (base : Nat) (ks : List Nat) :
    emitNibbles c w base ks (withReports ρ s) = (emitNibbles c w base ks s).mapState (withReports ρ) := by
  induction ks generalizing s with
  | nil => rfl
  | cons k ks ih => exact andThen_withReports ρ (emitIma_withReports ..) fun _ t => ih t

theorem groupChannel_withReports (c : Chan) (base : Nat) :
    groupChannel c base (withReports ρ s) = (groupChannel c base s).mapState (withReports ρ) := by
  simp only [groupChannel, srcRead32_fst, srcRead32_snd, wireByte_withReports, afterReads_withReports]
  exact emitNibbles_withReports ..

theorem msimaGroup_withReports : msimaGroup (withReports ρ s) = (msimaGroup s).mapState (withReports ρ) := by
  refine andThen_withReports ρ (groupChannel_withReports ..) fun _ t => ?_
  exact andThen_withReports ρ (groupChannel_withReports ..) fun _ u => rfl

theorem decodeMs_withReports (bits : DeltaBits) (c : Chan) (code : Code) :
    decodeMs bits c code (withReports ρ s) = (decodeMs bits c code s).mapState (withReports ρ) := by
  simp only [decodeMs, withReports_ms, apply_ite (Res.mapState (withReports ρ))]
  rfl

theorem emitMs_withReports (bits : DeltaBits) (i : Nat) (c : Chan) (code : Code) :
    emitMs bits i c code (withReports ρ s) = (emitMs bits i c code s).mapState (withReports ρ) :=
  andThen_withReports ρ (decodeMs_withReports ρ s bits c code) fun v t => outWrite_withReports ρ t i v

theorem msadpcmByte_withReports (bits : DeltaBits) :
    msadpcmByte bits (withReports ρ s) = (msadpcmByte bits s).mapState (withReports ρ) := by
  simp only [msadpcmByte, srcReadByte_fst, srcReadByte_snd, wireByte_withReports, afterReads_withReports,
    withReports_outCount, withReports_blockPos, setBlockPos_withReports, lastChan_withReports]
  refine andThen_withReports ρ (emitMs_withReports ..) fun _ t => ?_
  exact andThen_withReports ρ (emitMs_withReports ..) fun _ u => rfl

theorem loadHeader_withReports :
    loadHeader .doc (withReports ρ s) = withReports ρ (loadHeader .doc s) := by
  by_cases hch : s.latched.channels = 2
  · have hch' : (withReports ρ s).latched.channels = 2 := hch
    rw [loadHeader_stereo hch, loadHeader_stereo hch']
    rfl
  · have hch' : (withReports ρ s).latched.channels ≠ 2 := hch
    rw [loadHeader_mono hch, loadHeader_mono hch']
    rfl

theorem emitRegs_withReports (field : MsChan → Sample) (cs : List Chan) :
    emitRegs field cs (withReports ρ s) = (emitRegs field cs s).mapState (withReports ρ) := by
  induction cs generalizing s with
  | nil => rfl
  | cons c cs ih => exact andThen_withReports ρ (outWrite_withReports ..) fun _ t => ih (addCount 1 t)

theorem msadpcmHdr_withReports :
    msadpcmHdr .doc (withReports ρ s) = (msadpcmHdr .doc s).mapState (withReports ρ) := by
  simp only [msadpcmHdr, withReports_outCount, withReports_latched, withReports_reqN, channelList_withReports,
    loadHeader_withReports]
  split
  · rfl
  · refine andThen_withReports ρ (emitRegs_withReports ..) fun _ t => ?_
    exact andThen_withReports ρ (emitRegs_withReports ..) fun _ u => rfl

/-! Steps that differ at most in their reports. -/

theorem sameOutcome_of_mapState {α : Type} {r r' : Res α} (h : r' = r.mapState (withReports ρ)) :
    SameOutcome r.outcome r'.outcome := by
  subst h
  cases r <;> rfl

theorem sameButReports_withReports : SameButReports s (withReports ρ s) := sameButReports_iff.2 ⟨ρ, rfl⟩

theorem acceptWhenReady_same {body : State → State} (h : SameButReports (body s) (body (withReports ρ s))) :
    SameOutcome (acceptWhenReady body s) (acceptWhenReady body (withReports ρ s)) := by
  cases hm : s.mode <;> simp only [acceptWhenReady, withReports_mode, hm]
  case busy => rfl
  case ready => exact h
  case faulted => exact sameButReports_withReports ρ s
  case unconfigured => exact sameButReports_withReports ρ (raise .notConfigured s)

theorem acceptConfigure_same {body : State → State} (h : SameButReports (body s) (body (withReports ρ s))) :
    SameOutcome (acceptConfigure body s) (acceptConfigure body (withReports ρ s)) := by
  cases hm : s.mode <;> simp only [acceptConfigure, withReports_mode, hm]
  case busy => rfl
  case unconfigured => exact h
  case faulted => exact sameButReports_withReports ρ s
  case ready => exact sameButReports_withReports ρ (raise .alreadyConfigured s)

theorem acceptIllegal_same : SameOutcome (acceptIllegal s) (acceptIllegal (withReports ρ s)) := by
  cases hm : s.mode <;> simp only [acceptIllegal, withReports_mode, hm]
  case busy => rfl
  case faulted => exact sameButReports_withReports ρ s
  case unconfigured | ready => exact sameButReports_withReports ρ (raise .illegalCommand s)

theorem configure_same : SameButReports (configure s) (configure (withReports ρ s)) := by
  simp only [configure, withReports_args]
  cases configError s.args with
  | none => rfl
  | some code => exact sameButReports_withReports ρ (raise code s)

theorem startRead_same : SameButReports (startRead s) (startRead (withReports ρ s)) := by
  cases hn : badRequest s.latched.variant s.args.reqCount <;>
    simp only [startRead, withReports_latched, withReports_args, hn]
  case false => rfl
  case true => exact sameButReports_withReports ρ (raise .badRequestCount s)

theorem exec_same (i : Instr) : SameOutcome (exec i s) (exec i (withReports ρ s)) := by
  cases i with
  | configure => exact acceptConfigure_same ρ s (configure_same ρ s)
  | read => exact acceptWhenReady_same ρ s (startRead_same ρ s)
  | rewind | queryEod | queryStereo | queryRate | release => exact acceptWhenReady_same ρ s rfl
  | imaByte => exact sameOutcome_of_mapState ρ (imaByte_withReports ρ s)
  | msimaHdr => exact sameButReports_iff.2 ⟨ρ, msimaHdr_withReports ρ s⟩
  | msimaByte => exact sameOutcome_of_mapState ρ (msimaByte_withReports ρ s)
  | msimaGroup => exact sameOutcome_of_mapState ρ (msimaGroup_withReports ρ s)
  | msadpcmHdr => exact sameOutcome_of_mapState ρ (msadpcmHdr_withReports ρ s)
  | msadpcmByte => exact sameOutcome_of_mapState ρ (msadpcmByte_withReports ρ s _)
  | decodeIma code c => exact sameOutcome_of_mapState ρ (decodeIma_withReports ρ s code c)
  | decodeMs c code => exact sameOutcome_of_mapState ρ (decodeMs_withReports ρ s _ c code)

theorem writeCmd_same (w : U32) : SameOutcome (writeCmd w s) (writeCmd w (withReports ρ s)) := by
  unfold writeCmd
  cases decode (.cmd w) with
  | instr i => exact exec_same { ρ with cmd := w } { s with cmd := w } i
  | rejected why => exact acceptIllegal_same { ρ with cmd := w } { s with cmd := w }

theorem bindSource_same (before rest : List Byte) :
    SameOutcome (bindSource before rest s) (bindSource before rest (withReports ρ s)) := by
  cases hi : hasInstance s <;> simp only [bindSource, hi, show hasInstance (withReports ρ s) = hasInstance s from rfl]
  all_goals rfl

theorem hostAction_same (a : HostAction) : SameOutcome (hostAction a s) (hostAction a (withReports ρ s)) := by
  cases a with
  | writeCmd w => exact writeCmd_same ρ s w
  | bindSource before rest => exact bindSource_same ρ s before rest
  | writeArg | bindOut | hardwareReset => rfl

theorem hostTurn_same : SameOutcome (hostTurn s) (hostTurn (withReports ρ s)) := by
  unfold hostTurn
  cases hh : s.host with
  | nil =>
    simp only [withReports_host, hh]
    exact sameButReports_withReports ρ s
  | cons a rest =>
    simp only [withReports_host, hh]
    exact hostAction_same ρ { s with host := rest } a

theorem readIteration_same : SameOutcome (readIteration s) (readIteration (withReports ρ s)) := by
  cases hl : loopExit s <;>
    simp only [readIteration, hl, show loopExit (withReports ρ s) = loopExit s from rfl,
      show unitSelector (withReports ρ s) = unitSelector s from rfl]
  case true => rfl
  case false =>
    cases decode (unitSelector s) with
    | instr i => exact exec_same ρ s i
    | rejected why => rfl

theorem step_same : SameOutcome (step s) (step (withReports ρ s)) := by
  by_cases hm : s.mode = .busy
  · rw [step, step, withReports_mode, if_pos hm, if_pos hm]
    exact readIteration_same ρ s
  · rw [step, step, withReports_mode, if_neg hm, if_neg hm]
    exact hostTurn_same ρ s

end

/-! A run, by the outcome of its first step. -/

theorem run_of_next {k : Nat} {s t : State} (h : step s = .next t) :
    Host.Core.run core (k + 1) s = Host.Core.run core k t := by
  simp only [Host.Core.run, show core.step s = .next t from h]

theorem run_of_fault {k : Nat} {s : State} {f : Fault} (h : step s = .fault f) :
    Host.Core.run core (k + 1) s = .fault f := by
  simp only [Host.Core.run, show core.step s = .fault f from h]

theorem run_of_refused {k : Nat} {s : State} {r : Refusal} (h : step s = .refused r) :
    Host.Core.run core (k + 1) s = .refused r := by
  simp only [Host.Core.run, show core.step s = .refused r from h]

/-- Settles O56, by induction on the number of steps. -/
theorem reportsInfluenceNothing : Obligations.ReportsInfluenceNothing := by
  intro k
  induction k with
  | zero => exact fun s t h => h
  | succ k ih =>
    intro s t h
    obtain ⟨ρ, rfl⟩ := sameButReports_iff.1 h
    have hstep := step_same ρ s
    cases hs : step s <;> cases ht : step (withReports ρ s) <;> rw [hs, ht] at hstep
    case next.next s' t' =>
      rw [run_of_next hs, run_of_next ht]
      exact ih s' t' hstep
    case fault.fault f g =>
      rw [run_of_fault hs, run_of_fault ht]
      exact hstep
    case refused.refused q r =>
      rw [run_of_refused hs, run_of_refused ht]
      exact hstep
    all_goals exact absurd hstep id

end Sys2Proof.Machine

/-! # The source and output spaces (20_memory.md) -/

namespace Sys2Proof.Machine

/-! ### Nibbles, bytes and little-endian words -/

theorem hiNibble_toNat (b : Byte) : (hiNibble b).toNat = b.toNat / 16 := by
  simp only [hiNibble, BitVec.extractLsb'_toNat, Nat.shiftRight_eq_div_pow]
  omega

theorem loNibble_toNat (b : Byte) : (loNibble b).toNat = b.toNat % 16 := by
  simp [loNibble, BitVec.extractLsb'_toNat]

theorem payloadByte_toNat (hi lo : Code) : (payloadByte hi lo).toNat = hi.toNat * 16 + lo.toNat :=
  append_toNat hi lo

theorem wordNibble_toNat (w : U32) (k : Nat) : (wordNibble w k).toNat = w.toNat / 2 ^ (28 - 4 * k) % 16 := by
  simp [wordNibble, BitVec.extractLsb'_toNat, Nat.shiftRight_eq_div_pow]

theorem le32_toNat (b0 b1 b2 b3 : Byte) : (le32 b0 b1 b2 b3).toNat =
    b0.toNat + 256 * b1.toNat + 65536 * b2.toNat + 16777216 * b3.toNat := by
  simp only [le32, append_toNat]
  omega

theorem hiNibble_payloadByte (hi lo : Code) : hiNibble (payloadByte hi lo) = hi := by
  apply BitVec.eq_of_toNat_eq
  rw [hiNibble_toNat, payloadByte_toNat]
  omega

theorem loNibble_payloadByte (hi lo : Code) : loNibble (payloadByte hi lo) = lo := by
  apply BitVec.eq_of_toNat_eq
  rw [loNibble_toNat, payloadByte_toNat]
  omega

theorem payloadByte_nibbles (b : Byte) : payloadByte (hiNibble b) (loNibble b) = b := by
  apply BitVec.eq_of_toNat_eq
  rw [payloadByte_toNat, hiNibble_toNat, loNibble_toNat]
  omega

theorem groupWord_toNat (k0 k1 k2 k3 k4 k5 k6 k7 : Code) : (groupWord k0 k1 k2 k3 k4 k5 k6 k7).toNat =
    2 ^ 28 * k0.toNat + 2 ^ 24 * k1.toNat + 2 ^ 20 * k2.toNat + 2 ^ 16 * k3.toNat + 2 ^ 12 * k4.toNat +
      2 ^ 8 * k5.toNat + 2 ^ 4 * k6.toNat + k7.toNat := by
  simp only [groupWord, append_toNat]
  omega

/-- A word of codes, byte by byte: the first code is the high nibble of the last byte (R62, R78). -/
theorem groupWord_eq_le32 (k0 k1 k2 k3 k4 k5 k6 k7 : Code) : groupWord k0 k1 k2 k3 k4 k5 k6 k7 =
    le32 (payloadByte k6 k7) (payloadByte k4 k5) (payloadByte k2 k3) (payloadByte k0 k1) := by
  apply BitVec.eq_of_toNat_eq
  rw [groupWord_toNat, le32_toNat]
  simp only [payloadByte_toNat]
  omega

theorem groupCodes_groupWord (k0 k1 k2 k3 k4 k5 k6 k7 : Code) :
    groupCodes (groupWord k0 k1 k2 k3 k4 k5 k6 k7) = [k0, k1, k2, k3, k4, k5, k6, k7] := by
  simp only [groupCodes, List.map_cons, List.map_nil, List.cons.injEq, and_true, ← BitVec.toNat_inj,
    wordNibble_toNat, groupWord_toNat]
  omega

theorem groupCodes_le32 (b0 b1 b2 b3 : Byte) : groupCodes (le32 b0 b1 b2 b3) =
    [hiNibble b3, loNibble b3, hiNibble b2, loNibble b2, hiNibble b1, loNibble b1, hiNibble b0, loNibble b0] := by
  rw [← groupCodes_groupWord, groupWord_eq_le32]
  simp only [payloadByte_nibbles]

/-- Settles O5: the codes of a word of codes, and every word of bytes is one. -/
theorem nibbleOrder : Obligations.NibbleOrder :=
  ⟨groupCodes_le32, groupCodes_groupWord, fun hi lo => ⟨hiNibble_payloadByte hi lo, loNibble_payloadByte hi lo⟩⟩

/-! ### Reading the source -/

theorem srcReadByte_inside {s : State} (h : s.pos < s.src.len) :
    srcReadByte s = (cellRead s.src.cells s.pos, { s with pos := s.pos + 1 }) := if_pos h

theorem srcReadByte_past {s : State} (h : s.src.len ≤ s.pos) :
    srcReadByte s = (Config.draw s.drawIx, { s with eosFlag := true, drawIx := s.drawIx + 1 }) :=
  if_neg (Nat.not_lt.2 h)

/-- Settles O6, on either side of the end of the source. -/
theorem sourceReadByte : Obligations.SourceReadByte := fun _ =>
  ⟨srcReadByte_inside, fun h => ⟨_, srcReadByte_past h⟩⟩

/-- The signed value of two little-endian bytes (R57). -/
theorem le16_toInt (b0 b1 : Byte) : (le16 b0 b1).toInt =
    if b1.toNat < 128 then (b0.toNat + 256 * b1.toNat : Int) else (b0.toNat + 256 * b1.toNat : Int) - 65536 := by
  rw [BitVec.toInt_eq_toNat_cond, le16_toNat]
  have hsign : 2 * (b0.toNat + 256 * b1.toNat) < 2 ^ 16 ↔ b1.toNat < 128 := by omega
  simp only [hsign]
  push_cast
  rfl

/-- Settles O7: the field read is `le16` of the two bytes. -/
theorem read16LittleEndian : Obligations.Read16LittleEndian := fun _ => ⟨le16_toInt _ _, rfl⟩

/-- Settles O8: the word read is `le32` of the next four bytes. -/
theorem read32LittleEndian : Obligations.Read32LittleEndian := fun s =>
  ⟨by rw [srcRead32_fst, le32_toNat], srcRead32_snd s⟩

/-! ### The end of the data -/

theorem endOfDataIn_atEnd_iff (s : State) :
    endOfDataIn .atEnd s = true ↔ s.src.len ≤ s.pos ∨ s.latched.endPos ≤ s.pos := by
  simp [endOfDataIn, exhaustedIn]

theorem endOfDataIn_afterShortRead_iff (s : State) :
    endOfDataIn .afterShortRead s = true ↔ s.eosFlag = true ∨ s.latched.endPos ≤ s.pos := by
  simp [endOfDataIn, exhaustedIn]

/-- Settles O25: under either meaning only `pos >= END` is left to end the data. -/
theorem eosModesAgreeInsideSource : Obligations.EosModesAgreeInsideSource := by
  intro s hend hflag
  have hat : endOfDataIn .atEnd s = true ↔ s.latched.endPos ≤ s.pos :=
    (endOfDataIn_atEnd_iff s).trans (or_iff_right_of_imp hend.trans)
  have hshort : endOfDataIn .afterShortRead s = true ↔ s.latched.endPos ≤ s.pos := by
    rw [endOfDataIn_afterShortRead_iff, hflag]
    simp
  exact ⟨Bool.eq_iff_iff.2 (hat.trans hshort.symm), hat⟩

/-! ### Writing the output -/

theorem faultTaken_raise (code : FaultCode) (s : State) : FaultTaken (faultNum code) s (raise code s) := rfl

theorem outAt_setOut_same {s : State} (h : OutSpace.wf s.out) (i : Nat) (v : Sample) : outAt (setOut i v s) i = v :=
  cellRead_cellWrite_same h i v

theorem outAt_setOut_other {i j : Nat} (h : j ≠ i) (v : Sample) (s : State) :
    outAt (setOut i v s) j = outAt s j :=
  cellRead_cellWrite_other h v

/-- Settles O19, on either side of `N`. -/
theorem outputWrite : Obligations.OutputWrite := by
  intro i v s
  constructor
  · intro hn
    exact ⟨_, outWrite_raised hn v, faultTaken_raise .outputOverrun s⟩
  · intro hn hwf
    exact ⟨_, outWrite_done hn v, rfl, outAt_setOut_same hwf i v, fun j hj => outAt_setOut_other hj v s⟩

/-! ### A step answers a next state -/

section
variable {s : State}

/-- Outside `BUSY` a command, legal or not, is accepted, faults or is ignored (R100). -/
theorem acceptance_next (hm : s.mode ≠ .busy) : (∀ body, ∃ t, acceptWhenReady body s = .next t) ∧
    (∀ body, ∃ t, acceptConfigure body s = .next t) ∧ ∃ t, acceptIllegal s = .next t := by
  unfold acceptWhenReady acceptConfigure acceptIllegal
  cases h : s.mode with
  | busy => exact absurd h hm
  | unconfigured | ready | faulted => exact ⟨fun _ => ⟨_, rfl⟩, fun _ => ⟨_, rfl⟩, ⟨_, rfl⟩⟩

theorem exec_cmd_next {w : U32} {i : Instr} (hm : s.mode ≠ .busy) (hd : decode (.cmd w) = .instr i) :
    ∃ t, exec i s = .next t := by
  obtain ⟨hready, hconfigure, -⟩ := acceptance_next hm
  obtain rfl | rfl | rfl | rfl | rfl | rfl | rfl := cmd_instr_cases hd
  · exact hconfigure configure
  all_goals exact hready _

theorem writeCmd_next (hm : s.mode ≠ .busy) (w : U32) : ∃ t, writeCmd w s = .next t := by
  unfold writeCmd
  cases hd : decode (.cmd w) with
  | instr i => exact exec_cmd_next (s := { s with cmd := w }) hm hd
  | rejected why =>
    obtain ⟨-, -, hillegal⟩ := acceptance_next (s := { s with cmd := w }) hm
    exact hillegal

/-- Micro-operations and primitives take their faults as next states (R212). -/
theorem exec_micro_next {i : Instr} (hi : i ∉ commands) : ∃ t, exec i s = .next t := by
  cases i
  case configure | read | rewind | queryEod | queryStereo | queryRate | release => exact absurd (by decide) hi
  all_goals exact ⟨_, rfl⟩

/-- With a variant latched READ_LOOP always selects a micro-operation (R82). -/
theorem unitSelector_decodes (h : hasInstance s = true) : ∃ i, decode (unitSelector s) = .instr i := by
  unfold hasInstance at h
  unfold unitSelector
  generalize s.latched.variant = v, (s.blockPos.ch0 == s.latched.blockAlign) = b at h
  cases v <;> cases b
  case unset.false | unset.true => exact absurd h (by decide)
  all_goals exact ⟨_, rfl⟩

theorem step_busy_next (hm : s.mode = .busy) (hi : hasInstance s = true) : ∃ t, step s = .next t := by
  cases hl : loopExit s with
  | true => exact ⟨_, step_of_exit hm hl⟩
  | false =>
    obtain ⟨i, hd⟩ := unitSelector_decodes hi
    rw [step_of_unit hm hl hd]
    exact exec_micro_next (unitSelector_not_command hd)

/-- Outside `BUSY` only a binding of a source while a decoder lives has no next state (R68; log entry 11). -/
theorem hostTurn_next_or_refused (hm : s.mode ≠ .busy) : (∃ t, hostTurn s = .next t) ∨
    (hostTurn s = .refused .sourceBoundDuringInstance ∧ hasInstance s = true ∧
      ∃ before rest more, s.host = .bindSource before rest :: more) := by
  unfold hostTurn
  cases s.host with
  | nil => exact .inl ⟨_, rfl⟩
  | cons a more =>
    cases a with
    | writeArg | bindOut | hardwareReset => exact .inl ⟨_, rfl⟩
    | writeCmd w => exact .inl (writeCmd_next (s := { s with host := more }) hm w)
    | bindSource before rest =>
      cases hi : hasInstance s with
      | false => exact .inl ⟨_, if_neg (Bool.eq_false_iff.1 hi)⟩
      | true => exact .inr ⟨if_pos hi, rfl, before, rest, more, rfl⟩

end

/-- Settles O46: in `BUSY` a legal state has a decoder, so a micro-operation to run; elsewhere by the host's next
action. -/
theorem legalStatesNeverStop : Obligations.LegalStatesNeverStop := by
  intro s hlegal
  by_cases hm : s.mode = .busy
  · exact .inl (step_busy_next hm (hlegal.running hm).decoder)
  · rw [step, if_neg hm]
    obtain hnext | ⟨href, hinst, hhost⟩ := hostTurn_next_or_refused hm
    · exact .inl hnext
    · exact .inr ⟨href, hm, hinst, hhost⟩

/-! ### What writes the source and the argument registers -/

/-- No command writes the source's bytes or an argument register (R22, R51). -/
theorem cmdEffect_keeps_source_args {d : Decoded} {s t : State} (h : CmdEffect d s t) :
    (t.src.cells = s.src.cells ∧ t.src.len = s.src.len) ∧ t.args = s.args := by
  cases h <;> exact ⟨⟨rfl, rfl⟩, rfl⟩

/-- A host step binds a source only where no decoder lives (R51, R68). -/
theorem hostEffect_keeps_source {s t : State} (hi : hasInstance s = true) (h : HostEffect s t) :
    t.src.cells = s.src.cells ∧ t.src.len = s.src.len := by
  cases h with
  | idle | argWritten | outBound | resetDone => exact ⟨rfl, rfl⟩
  | command hh he => exact (cmdEffect_keeps_source_args he).1
  | sourceBound hh hn => simp [hi] at hn

/-- What a host step that changes an argument register is (R22). -/
theorem hostEffect_args {s t : State} (h : HostEffect s t) (hne : t.args ≠ s.args) :
    (∃ r v rest, s.host = .writeArg r v :: rest) ∨ ∃ rest, s.host = .hardwareReset :: rest := by
  cases h with
  | idle | sourceBound | outBound => exact absurd rfl hne
  | argWritten hh => exact .inl ⟨_, _, _, hh⟩
  | command hh he => exact absurd (cmdEffect_keeps_source_args he).2 hne
  | resetDone hh => exact .inr ⟨_, hh⟩

/-- No step of a READ writes the source or an argument register (R22, R51). -/
theorem step_busy_keeps_source_args {s t : State} (hm : s.mode = .busy) (he : step s = .next t) :
    (t.src.cells = s.src.cells ∧ t.src.len = s.src.len) ∧ t.args = s.args := by
  obtain rfl | ⟨-, -, hargs, -, -, hsrc, -⟩ := step_busy_frame hm he
  · exact ⟨⟨rfl, rfl⟩, rfl⟩
  · exact ⟨⟨congrArg Source.cells hsrc, congrArg Source.len hsrc⟩, hargs⟩

/-- Settles O52: in `BUSY` by the frame of READ_LOOP, elsewhere by what a host step can do. -/
theorem sourceAndArgumentsNotWritten : Obligations.SourceAndArgumentsNotWritten := by
  intro s t he
  by_cases hm : s.mode = .busy
  · obtain ⟨hsrc, hargs⟩ := step_busy_keeps_source_args hm he
    exact ⟨fun _ => hsrc, fun hne => absurd hargs hne⟩
  · have hhost := step_host_effect hm he
    exact ⟨fun hi => hostEffect_keeps_source (hi.resolve_right hm) hhost, fun hne => ⟨hm, hostEffect_args hhost hne⟩⟩

end Sys2Proof.Machine

/-! # The encoding (30_encoding.md) -/

namespace Sys2Proof.Machine

/-! ### Command words and selectors -/

/-- Settles O1, row by row of R71 and R82. -/
theorem commandWordsDecode : Obligations.CommandWordsDecode :=
  ⟨rfl, rfl, rfl, rfl, rfl, rfl, rfl, rfl, rfl, rfl, rfl, rfl, rfl, rfl, rfl⟩

/-- The decoder gives back every instruction it is handed the encoding of (R71, R74, R82). -/
theorem decode_encode (i : Instr) : decode (encode i) = .instr i := by
  cases i <;> rfl

/-- A command word with `ZERO` 0 and `OP` in 1 to 7 is the encoding of one of the seven commands (R71). -/
theorem exists_command_of_legal_word {w : U32} (h : w.toNat / 16 = 0 ∧ 1 ≤ w.toNat % 16 ∧ w.toNat % 16 ≤ 7) :
    ∃ i ∈ commands, encode i = .cmd w := by
  obtain rfl | rfl | rfl | rfl | rfl | rfl | rfl := cmd_word_cases h
  · exact ⟨.configure, by decide, rfl⟩
  · exact ⟨.read, by decide, rfl⟩
  · exact ⟨.rewind, by decide, rfl⟩
  · exact ⟨.queryEod, by decide, rfl⟩
  · exact ⟨.queryStereo, by decide, rfl⟩
  · exact ⟨.queryRate, by decide, rfl⟩
  · exact ⟨.release, by decide, rfl⟩

/-- A word the decoder takes passes both checks of R72. -/
theorem legal_word_of_decode {w : U32} {i : Instr} (h : decode (.cmd w) = .instr i) :
    w.toNat / 16 = 0 ∧ 1 ≤ w.toNat % 16 ∧ w.toNat % 16 ≤ 7 := by
  by_contra hbad
  obtain ⟨why, hwhy⟩ := decodeCmd_rejected hbad
  cases h.symm.trans hwhy

/-- A command word is the encoding of the instruction it decodes to. -/
theorem encode_of_decode_cmd {w : U32} {i : Instr} (h : decode (.cmd w) = .instr i) : encode i = .cmd w := by
  obtain ⟨j, -, hj⟩ := exists_command_of_legal_word (legal_word_of_decode h)
  have hij : Decoded.instr i = .instr j := by rw [← h, ← hj, decode_encode]
  cases hij
  exact hj

/-- Settles O3: the word's command is the only instruction whose encoding it is. -/
theorem encodeDecodeRoundTrip : Obligations.EncodeDecodeRoundTrip :=
  ⟨decode_encode, fun _ _ => encode_of_decode_cmd⟩

theorem wellFormed_cmd_iff (w : U32) :
    (Encoding.cmd w).wellFormed = true ↔ w.toNat / 16 = 0 ∧ 1 ≤ w.toNat % 16 ∧ w.toNat % 16 ≤ 7 := by
  simp [Encoding.wellFormed, cmdZeroOk, cmdOpOk]

theorem cmd_decodes_iff (w : U32) : (∃ i, decode (.cmd w) = .instr i) ↔ (Encoding.cmd w).wellFormed = true := by
  rw [wellFormed_cmd_iff]
  constructor
  · rintro ⟨i, hi⟩
    exact legal_word_of_decode hi
  · intro h
    obtain ⟨i, -, hi⟩ := exists_command_of_legal_word h
    exact ⟨i, hi ▸ decode_encode i⟩

theorem unit_decodes_iff (v : Variant) (atHeader : Bool) :
    (∃ i, decode (.unit v atHeader) = .instr i) ↔ (Encoding.unit v atHeader).wellFormed = true := by
  cases v with
  | unset => simp [decode, decodeUnit, Encoding.wellFormed]
  | ima | msima2 => exact ⟨fun _ => rfl, fun _ => ⟨_, rfl⟩⟩
  | msima1 | msadpcm => cases atHeader <;> exact ⟨fun _ => rfl, fun _ => ⟨_, rfl⟩⟩

/-- Settles O4, for each kind of encoding. -/
theorem decodesExactlyLegalEncodings : Obligations.DecodesExactlyLegalEncodings := by
  intro e
  cases e with
  | cmd w => exact cmd_decodes_iff w
  | unit v atHeader => exact unit_decodes_iff v atHeader
  | nibble f code c => cases f <;> exact ⟨fun _ => rfl, fun _ => ⟨_, rfl⟩⟩

/-! ### Writing an illegal command word -/

theorem acceptIllegal_raises {s : State} (hm : s.mode = .unconfigured ∨ s.mode = .ready) :
    acceptIllegal s = .next (raise .illegalCommand s) := by
  obtain hm | hm := hm <;> simp only [acceptIllegal, hm]

theorem step_of_rejected_word {s : State} {w : U32} {rest : List HostAction} {why : DecodeReject}
    (hm : s.mode ≠ .busy) (hh : s.host = .writeCmd w :: rest) (hd : decode (.cmd w) = .rejected why) :
    step s = acceptIllegal { s with host := rest, cmd := w } := by
  simp only [step, hm, if_false, hostTurn, hh, hostAction, writeCmd, hd]

/-- A rejected word written in `UNCONFIGURED` or `READY` is recorded and faults (R72, R100). -/
theorem rejected_word_faults {s : State} {w : U32} {rest : List HostAction} {why : DecodeReject}
    (hd : decode (.cmd w) = .rejected why) (hh : s.host = .writeCmd w :: rest)
    (hm : s.mode = .unconfigured ∨ s.mode = .ready) :
    ∃ t, step s = .next t ∧ FaultTaken 7 { s with host := rest, cmd := w } t := by
  have hidle : s.mode ≠ .busy := by obtain hm | hm := hm <;> simp [hm]
  refine ⟨_, ?_, faultTaken_raise .illegalCommand _⟩
  exact (step_of_rejected_word hidle hh hd).trans (acceptIllegal_raises (s := { s with host := rest, cmd := w }) hm)

/-- Settles O2: R72's condition fails exactly for the words of R71. -/
theorem illegalCommandWords : Obligations.IllegalCommandWords := by
  intro w
  constructor
  · intro hbad
    have hnot : ¬(w.toNat / 16 = 0 ∧ 1 ≤ w.toNat % 16 ∧ w.toNat % 16 ≤ 7) := by omega
    obtain ⟨why, hwhy⟩ := decodeCmd_rejected hnot
    refine ⟨fun i hi => ?_, fun s rest => rejected_word_faults hwhy⟩
    cases hwhy.symm.trans hi
  · intro hgood
    obtain ⟨i, hi, hiw⟩ := exists_command_of_legal_word (w := w) (by omega)
    exact ⟨i, hi, hiw ▸ decode_encode i⟩

/-! ### The bytes and samples of a unit -/

/-- `t` is `s` after a unit of this many bytes and samples, as far as the read position, the end-of-source flag, the
draws and the sample count go (R82). -/
def UnitDone (size : Nat × Nat) (s t : State) : Prop :=
  t.pos = (afterReads size.1 s).pos ∧ t.eosFlag = (afterReads size.1 s).eosFlag ∧
    t.drawIx = (afterReads size.1 s).drawIx ∧ t.outCount.toNat = s.outCount.toNat + size.2

section
variable {s : State}

/-- Inside the request the sample count does not wrap (R39, R106). -/
theorem unitDone_of_room {n : Nat} {k : U32} {t : State}
    (h : t.pos = (afterReads n s).pos ∧ t.eosFlag = (afterReads n s).eosFlag ∧ t.drawIx = (afterReads n s).drawIx ∧
      t.outCount = s.outCount + k) (hroom : s.outCount.toNat + k.toNat ≤ s.reqN.toNat) :
    UnitDone (n, k.toNat) s t := by
  have hlt := s.reqN.isLt
  obtain ⟨hpos, heos, hdraw, hcount⟩ := h
  refine ⟨hpos, heos, hdraw, ?_⟩
  rw [hcount, BitVec.toNat_add]
  exact Nat.mod_eq_of_lt (by omega)

theorem unitDone_imaByte (hroom : s.outCount.toNat + 2 ≤ s.reqN.toNat) (hok : ∀ c, stepIndexOk (s.ima.get c) = true) :
    UnitDone (1, 2) s (imaByte s).state := by
  by_cases hch : s.latched.channels = 2
  · rw [imaByte_stereo hch (hok .c0) (hok .c1) hroom]
    exact unitDone_of_room (k := 2) (by simp) hroom
  · rw [imaByte_mono hch (hok .c0) hroom]
    exact unitDone_of_room (k := 2) (by simp) hroom

theorem unitDone_msimaHdr (s : State) : UnitDone (4, 0) s (msimaHdr s) := by
  rw [msimaHdr_eq]
  exact ⟨rfl, rfl, rfl, rfl⟩

theorem unitDone_msimaByte (hroom : s.outCount.toNat + 2 ≤ s.reqN.toNat)
    (hb : (msimaByte s).state.mode = .busy) : UnitDone (1, 2) s (msimaByte s).state := by
  cases hok : stepIndexOk s.ima.ch0 with
  | false =>
    rw [msimaByte_fault hok] at hb
    simp at hb
  | true =>
    rw [msimaByte_ok hok hroom]
    exact unitDone_of_room (k := 2) (by simp) hroom

theorem unitDone_msimaGroup (hwf : OutSpace.wf s.out) (hroom : s.outCount.toNat + 16 ≤ s.reqN.toNat)
    (hok : ∀ c, stepIndexOk (s.ima.get c) = true) : UnitDone (8, 16) s (msimaGroup s).state := by
  obtain ⟨o, he, -⟩ := msimaGroup_ok s (hok .c0) (hok .c1) hwf hroom
  rw [he]
  exact unitDone_of_room (k := 16) (by simp) hroom

theorem unitDone_msadpcmHdr (hch : s.latched.channels = 1 ∨ s.latched.channels = 2)
    (hb : (msadpcmHdr .doc s).state.mode = .busy) :
    UnitDone (7 * s.latched.channels.toNat, 2 * s.latched.channels.toNat) s (msadpcmHdr .doc s).state := by
  by_cases hfit : s.outCount.toNat + 2 * s.latched.channels.toNat ≤ s.reqN.toNat
  · obtain hch | hch := hch <;> rw [hch] at hfit ⊢
    · rw [msadpcmHdr_mono hch hfit]
      exact unitDone_of_room (k := 2) (by simp) hfit
    · rw [msadpcmHdr_stereo hch hfit]
      exact unitDone_of_room (k := 4) (by simp) hfit
  · rw [msadpcmHdr_fault (by omega)] at hb
    simp at hb

theorem unitDone_msadpcmByte {bits : DeltaBits} (hroom : s.outCount.toNat + 2 ≤ s.reqN.toNat)
    (hb : (msadpcmByte bits s).state.mode = .busy) : UnitDone (1, 2) s (msadpcmByte bits s).state := by
  obtain ⟨rfl, h0⟩ | h0 := msOverflow_cases bits (hiNibble (wireByte s 0)) s.ms.ch0
  · rw [msadpcmByte_fault_first h0] at hb
    simp at hb
  obtain ⟨rfl, h1⟩ | h1 := msOverflow_cases bits (loNibble (wireByte s 0))
    (if s.latched.channels = 2 then s.ms.ch1 else msNext bits (hiNibble (wireByte s 0)) s.ms.ch0)
  · rw [msadpcmByte_fault_second (h0 rfl) (by omega) h1] at hb
    simp at hb
  by_cases hch : s.latched.channels = 2
  · rw [if_pos hch] at h1
    rw [msadpcmByte_stereo hch h0 h1 hroom]
    exact unitDone_of_room (k := 2) (by simp) hroom
  · rw [if_neg hch] at h1
    rw [msadpcmByte_mono hch h0 h1 hroom]
    exact unitDone_of_room (k := 2) (by simp) hroom

/-- Every variant's request unit is at least two samples, so two fit where a READ goes on (R104). -/
theorem room_two_of_legal (h : Legal s) (hm : s.mode = .busy) (hl : loopExit s = false) :
    s.outCount.toNat + 2 ≤ s.reqN.toNat := by
  have hroom := room_of_legal h hm hl
  obtain hu | hu := requestUnit_cases s.latched.variant <;> omega

end

/-- Settles O49, micro-operation by micro-operation; one that faults does not stay in `BUSY`. -/
theorem unitLengths : Obligations.UnitLengths := by
  intro s t h hm hl he hb
  have hroom := room_two_of_legal h hm hl
  have hrun := h.running hm
  show UnitDone (unitSize s) s t
  obtain ⟨hexit, -⟩ | ⟨-, hunit⟩ := step_busy_cases hm he
  · simp [hl] at hexit
  obtain ⟨hv, rfl⟩ | ⟨hv, hat, rfl⟩ | ⟨hv, hne, rfl⟩ | ⟨hv, rfl⟩ | ⟨hv, hat, rfl⟩ | ⟨hv, hne, rfl⟩ := hunit
  · simp only [unitSize, hv]
    exact unitDone_imaByte hroom (stepIndexOk_of_legal h (by simp [hv]))
  · simp only [unitSize, hv, hat, if_true]
    exact unitDone_msimaHdr s
  · simp only [unitSize, hv, hne, if_false]
    exact unitDone_msimaByte hroom hb
  · have hroom16 := room_of_legal h hm hl
    simp only [hv, requestUnit, if_true] at hroom16
    obtain ⟨-, hwf, -⟩ := hrun.spaces
    simp only [unitSize, hv]
    exact unitDone_msimaGroup hwf hroom16 (stepIndexOk_of_legal h (by simp [hv]))
  · obtain ⟨⟨hch, -⟩, -⟩ := hrun.live hrun.decoder
    simp only [unitSize, hv, hat, if_true]
    exact unitDone_msadpcmHdr hch hb
  · simp only [unitSize, hv, hne, if_false]
    exact unitDone_msadpcmByte hroom hb

end Sys2Proof.Machine

/-! # The commands and the step that runs them (40_base_and_commands.md) -/

namespace Sys2Proof.Machine

/-! ### What accepting a command does, mode by mode -/

section
variable {s : State}

theorem acceptWhenReady_of_ready (hm : s.mode = .ready) (body : State → State) :
    acceptWhenReady body s = .next (body s) := by
  simp only [acceptWhenReady, hm]

theorem acceptWhenReady_of_unconfigured (hm : s.mode = .unconfigured) (body : State → State) :
    acceptWhenReady body s = .next (raise .notConfigured s) := by
  simp only [acceptWhenReady, hm]

theorem acceptConfigure_of_unconfigured (hm : s.mode = .unconfigured) (body : State → State) :
    acceptConfigure body s = .next (body s) := by
  simp only [acceptConfigure, hm]

theorem acceptConfigure_of_ready (hm : s.mode = .ready) (body : State → State) :
    acceptConfigure body s = .next (raise .alreadyConfigured s) := by
  simp only [acceptConfigure, hm]

/-- In `FAULTED` no command, legal or not, has an effect (R100, R214). -/
theorem acceptance_of_faulted (hm : s.mode = .faulted) : (∀ body, acceptWhenReady body s = .next s) ∧
    (∀ body, acceptConfigure body s = .next s) ∧ acceptIllegal s = .next s := by
  simp only [acceptWhenReady, acceptConfigure, acceptIllegal, hm, implies_true, and_self]

theorem exec_configure_of_unconfigured (hm : s.mode = .unconfigured) : exec .configure s = .next (configure s) :=
  acceptConfigure_of_unconfigured hm _

theorem exec_configure_of_ready (hm : s.mode = .ready) : exec .configure s = .next (raise .alreadyConfigured s) :=
  acceptConfigure_of_ready hm _

theorem exec_read_of_ready (hm : s.mode = .ready) : exec .read s = .next (startRead s) :=
  acceptWhenReady_of_ready hm _

theorem exec_rewind_of_ready (hm : s.mode = .ready) : exec .rewind s = .next (rewind s) :=
  acceptWhenReady_of_ready hm _

/-- Without a decoder every command but CONFIGURE faults (R100). -/
theorem exec_cmd_of_unconfigured {w : U32} {i : Instr} (hd : decode (.cmd w) = .instr i) (hi : i ≠ .configure)
    (hm : s.mode = .unconfigured) : exec i s = .next (raise .notConfigured s) := by
  obtain rfl | rfl | rfl | rfl | rfl | rfl | rfl := cmd_instr_cases hd
  · exact absurd rfl hi
  all_goals exact acceptWhenReady_of_unconfigured hm _

theorem exec_cmd_of_faulted {w : U32} {i : Instr} (hd : decode (.cmd w) = .instr i) (hm : s.mode = .faulted) :
    exec i s = .next s := by
  obtain ⟨hready, hconfigure, -⟩ := acceptance_of_faulted hm
  obtain rfl | rfl | rfl | rfl | rfl | rfl | rfl := cmd_instr_cases hd
  · exact hconfigure _
  all_goals exact hready _

/-! ### A host write of CMD -/

/-- Outside `BUSY` the step is the host's turn, which hands the word to the decoder (R26, R100). -/
theorem step_of_command_word {w : U32} {rest : List HostAction} {i : Instr} (hm : s.mode ≠ .busy)
    (hh : s.host = .writeCmd w :: rest) (hd : decode (.cmd w) = .instr i) :
    step s = exec i { s with host := rest, cmd := w } := by
  simp only [step, hm, if_false, hostTurn, hh, hostAction, writeCmd, hd]

/-- A legal word decodes to the command at its opcode's place in the table of R71. -/
theorem decode_legal_word {w : U32} (h : w.toNat / 16 = 0 ∧ 1 ≤ w.toNat % 16 ∧ w.toNat % 16 ≤ 7) :
    ∃ i, commands[w.toNat % 16 - 1]? = some i ∧ decode (.cmd w) = .instr i := by
  obtain rfl | rfl | rfl | rfl | rfl | rfl | rfl := cmd_word_cases h <;> exact ⟨_, rfl, rfl⟩

/-- CONFIGURE is the command with opcode 1 (R71). -/
theorem eq_configure_iff {w : U32} {i : Instr} (hd : decode (.cmd w) = .instr i) :
    i = .configure ↔ w.toNat % 16 = 1 := by
  constructor
  · rintro rfl
    obtain rfl : cmdWord 1 = w := Encoding.cmd.inj (encode_of_decode_cmd hd)
    rfl
  · intro hop
    obtain ⟨hzero, -⟩ := legal_word_of_decode hd
    obtain rfl : w = 1 := BitVec.eq_of_toNat_eq (show w.toNat = 1 by omega)
    exact (Decoded.instr.inj hd).symm

theorem step_busy_keeps_host {t : State} (hm : s.mode = .busy) (he : step s = .next t) : t.host = s.host := by
  obtain rfl | ⟨-, -, -, -, -, -, -, hhost, -⟩ := step_busy_frame hm he
  · rfl
  · exact hhost

/-- A `CMD` write in `FAULTED` is recorded and nothing more (R100, R214). -/
theorem step_of_cmd_faulted {w : U32} {rest : List HostAction} (hh : s.host = .writeCmd w :: rest)
    (hm : s.mode = .faulted) : step s = .next { s with host := rest, cmd := w } := by
  have hidle : s.mode ≠ .busy := by simp [hm]
  cases hd : decode (.cmd w) with
  | instr i =>
    rw [step_of_command_word hidle hh hd]
    exact exec_cmd_of_faulted (s := { s with host := rest, cmd := w }) hd hm
  | rejected why =>
    rw [step_of_rejected_word hidle hh hd]
    exact (acceptance_of_faulted (s := { s with host := rest, cmd := w }) hm).2.2

end

/-- Settles O9, by the host's turn. -/
theorem stepRunsDecodedCommand : Obligations.StepRunsDecodedCommand := fun _ _ _ _ => step_of_command_word

/-- Settles O13, mode by mode; what a legal word does is its command's `exec`. -/
theorem commandAcceptance : Obligations.CommandAcceptance := by
  intro s w rest hh
  refine ⟨fun hm t => step_busy_keeps_host hm, step_of_cmd_faulted hh, fun hm => ?_⟩
  have hidle : s.mode ≠ .busy := by obtain hm | hm := hm <;> simp [hm]
  by_cases hw : w.toNat / 16 = 0 ∧ 1 ≤ w.toNat % 16 ∧ w.toNat % 16 ≤ 7
  case neg =>
    obtain ⟨why, hwhy⟩ := decodeCmd_rejected hw
    rw [if_pos (by omega)]
    exact rejected_word_faults hwhy hh hm
  obtain ⟨i, hi, hd⟩ := decode_legal_word hw
  have hstep := step_of_command_word hidle hh hd
  rw [if_neg (by omega)]
  split_ifs with hnone hagain
  · obtain ⟨hmode, hop⟩ := hnone
    have hne : i ≠ .configure := fun he => hop ((eq_configure_iff hd).1 he)
    exact ⟨_, hstep.trans (exec_cmd_of_unconfigured (s := { s with host := rest, cmd := w }) hd hne hmode),
      faultTaken_raise .notConfigured _⟩
  · obtain ⟨hmode, hop⟩ := hagain
    obtain rfl := (eq_configure_iff hd).2 hop
    exact ⟨_, hstep.trans (exec_configure_of_ready (s := { s with host := rest, cmd := w }) hmode),
      faultTaken_raise .alreadyConfigured _⟩
  · exact ⟨i, hi, hstep⟩

/-! ### READ_LOOP -/

theorem loopExit_iff (s : State) : loopExit s = true ↔ s.reqN.toNat ≤ s.outCount.toNat ∨ endOfData s = true := by
  simp [loopExit]

theorem loopExit_eq_false_iff (s : State) :
    loopExit s = false ↔ s.outCount.toNat < s.reqN.toNat ∧ endOfData s = false := by
  simp [loopExit]

theorem readEnded_finishRead (s : State) : ReadEnded s (finishRead s) := rfl

/-- Settles O10: the exit test, then the row of the selection table (R82). -/
theorem stepRunsReadLoop : Obligations.StepRunsReadLoop := by
  intro s hm
  refine ⟨fun hexit => ⟨_, step_of_exit hm ((loopExit_iff s).2 hexit), readEnded_finishRead s⟩, fun hn hd => ?_⟩
  have hrow {i : Instr} := step_of_unit (i := i) hm ((loopExit_eq_false_iff s).2 ⟨hn, hd⟩)
  simp only [unitSelector, decode] at hrow
  exact ⟨fun hv => hrow (by rw [hv]; rfl),
    fun hv hat => hrow (by rw [hv, beq_iff_eq.2 hat]; rfl),
    fun hv hne => hrow (by rw [hv, beq_eq_false_iff_ne.2 hne]; rfl),
    fun hv => hrow (by rw [hv]; rfl),
    fun hv hat => hrow (by rw [hv, beq_iff_eq.2 hat]; rfl),
    fun hv hne => hrow (by rw [hv, beq_eq_false_iff_ne.2 hne]; rfl)⟩

/-- Settles O11: the count a legal state holds is a multiple of the variant's unit. -/
theorem readResultIsBounded : Obligations.ReadResultIsBounded := by
  intro s h hm hexit
  obtain ⟨hle, -, hunit⟩ := ((legal_iff s).1 h).2.request.1 hm
  refine ⟨_, step_of_exit hm ((loopExit_iff s).2 hexit), readEnded_finishRead s, hle, ?_, fun hv => ?_⟩
  · show s.outCount.toNat % 2 = 0
    obtain hu | hu := requestUnit_cases s.latched.variant <;> rw [hu] at hunit <;> omega
  · rwa [hv] at hunit

/-! ### Every READ ends -/

/-- Every unit takes at least one byte (R82). -/
theorem unitSize_bytes_pos {s : State} (h : LatchedOk s.latched) : 1 ≤ (unitSize s).1 := by
  obtain ⟨hch, -, hvar⟩ := h
  have hch' : 1 ≤ s.latched.channels.toNat := by obtain hch | hch := hch <;> simp [hch]
  cases hv : s.latched.variant <;> simp only [unitSize, hv]
  case unset => simp [hv] at hvar
  case ima | msima2 => decide
  case msima1 => split <;> decide
  case msadpcm =>
    split
    · show 1 ≤ 7 * s.latched.channels.toNat
      omega
    · decide

/-- Where data was left, reading moves the read position or exhausts the source, under either meaning (R53 to R56). -/
theorem reads_advance_or_exhaust {s t : State} {n : Nat} (hn : 1 ≤ n) (hpos : t.pos = (afterReads n s).pos)
    (heos : t.eosFlag = (afterReads n s).eosFlag) (hdata : endOfData s = false) :
    s.pos < t.pos ∨ endOfData t = true := by
  obtain hlt | hge := Nat.lt_or_ge s.pos s.src.len
  · refine .inl ?_
    rw [hpos, afterReads_pos]
    omega
  · refine .inr ((endOfData_iff t).2 ?_)
    cases hmode : Config.eosMode with
    | atEnd => exact absurd ((endOfData_iff s).2 (.inl ⟨hmode, hge⟩)) (by simp [hdata])
    | afterShortRead =>
      have hshort : s.src.len - s.pos < n := by omega
      exact .inr (.inl ⟨rfl, by simp [heos, hshort]⟩)

/-- An iteration after which the READ goes on leaves less of the valid range, unless the next one ends the READ. -/
theorem step_busy_advances {s t : State} (h : Legal s) (hm : s.mode = .busy) (hl : loopExit s = false)
    (he : step s = .next t) (hb : t.mode = .busy) :
    t.latched = s.latched ∧ (s.pos < t.pos ∨ loopExit t = true) := by
  have hrun := h.running hm
  obtain ⟨hlatched, -⟩ := hrun.live hrun.decoder
  obtain ⟨hpos, heos, -⟩ := unitLengths s t h hm hl he hb
  obtain rfl | ⟨-, -, -, hlat, -⟩ := step_busy_frame hm he
  · simp at hb
  · refine ⟨hlat, ?_⟩
    exact (reads_advance_or_exhaust (unitSize_bytes_pos hlatched) hpos heos ((loopExit_eq_false_iff s).1 hl).2).imp id
      fun hend => (loopExit_iff t).2 (.inr hend)

theorem run_one {s t : State} (h : step s = .next t) : Host.Core.run core 1 s = .next t := run_of_next h

/-- Settles O47, by induction on the part of the valid range still to read. -/
theorem readTerminates : Obligations.ReadTerminates := by
  intro s
  induction hleft : s.latched.endPos - s.pos using Nat.strong_induction_on generalizing s with
  | _ left ih =>
    intro h hm
    obtain ⟨t, he⟩ := step_busy_next hm (h.running hm).decoder
    by_cases hb : t.mode = .busy
    case neg => exact ⟨1, t, by omega, run_one he, hb⟩
    cases hl : loopExit s with
    | true =>
      obtain rfl := next_inj ((step_of_exit hm hl).symm.trans he)
      simp at hb
    | false =>
      have hroom : s.pos < s.latched.endPos := by
        by_contra hge
        have hdata := ((loopExit_eq_false_iff s).1 hl).2
        exact absurd ((endOfData_iff s).2 (.inr (.inr (Nat.not_lt.1 hge)))) (by simp [hdata])
      obtain ⟨hlat, hpos | hexit⟩ := step_busy_advances h hm hl he hb
      · obtain ⟨k, u, hk, hrun, hu⟩ := ih _ (by rw [hlat]; omega) t rfl (stepKeepsLegal s t h he) hb
        rw [hlat] at hk
        exact ⟨k + 1, u, by omega, (run_of_next he).trans hrun, hu⟩
      · exact ⟨2, _, by omega, (run_of_next he).trans (run_one (step_of_exit hb hexit)), by simp⟩

/-! ### CONFIGURE, READ and REWIND -/

theorem configure_of_error {s : State} {code : FaultCode} (h : configError s.args = some code) :
    configure s = raise code s := by
  simp only [configure, h]

theorem configure_of_none {s : State} (h : configError s.args = none) :
    configure s = setResult 0 { initDerived { s with latched := latchedOf s } with mode := .ready } := by
  simp only [configure, h]

/-- `SelectVariant`, format by format (R102). -/
theorem selectVariant_eq {f : U32} (hf : f = 1 ∨ f = 2 ∨ f = 3) (c : U32) : selectVariant f c =
    if f = 1 then .ima else if f = 3 then .msadpcm else if c = 1 then .msima1 else .msima2 := by
  obtain rfl | rfl | rfl := hf <;> rfl

/-- Bit 0 of an argument register, as R101 latches `OWN`. -/
theorem getLsbD_zero_eq_odd (w : U32) : w.getLsbD 0 = decide (w.toNat % 2 = 1) := by
  rw [BitVec.getLsbD, Nat.testBit_zero]

/-- Settles O20, check by check in the order of R101. -/
theorem configureChecksThenLatches : Obligations.ConfigureChecksThenLatches := by
  intro s hm
  refine ⟨_, exec_configure_of_unconfigured hm, ?_⟩
  simp only [configure, configError]
  by_cases hf : s.args.format = 1 ∨ s.args.format = 2 ∨ s.args.format = 3
  case neg =>
    simp only [hf, not_false_eq_true, if_true]
    exact faultTaken_raise .unsupportedFormat s
  by_cases hc : s.args.channels = 1 ∨ s.args.channels = 2
  case neg =>
    simp only [hf, hc, not_true_eq_false, not_false_eq_true, if_false, if_true]
    exact faultTaken_raise .badChannels s
  rw [← selectVariant_eq hf, ← getLsbD_zero_eq_odd]
  simp only [hf, hc, not_true_eq_false, if_false]
  split_ifs
  · exact faultTaken_raise .zeroBlockAlign s
  · exact faultTaken_raise .blockAlignTooSmall s
  · exact faultTaken_raise .blockAlignTooSmall s
  · rfl

/-- The counts READ refuses (R104). -/
theorem badRequest_iff {v : Variant} (hv : v ≠ .unset) (n : U32) : badRequest v n = true ↔
    (v = .msima2 ∧ n.toNat % 16 ≠ 0) ∨ (v ≠ .msima2 ∧ n.toNat % 2 ≠ 0) := by
  cases v
  case unset => exact absurd rfl hv
  all_goals simp [badRequest]

/-- Settles O21, on either side of the count's check. -/
theorem readStartsRequest : Obligations.ReadStartsRequest := by
  intro s hm hv n
  refine ⟨_, exec_read_of_ready hm, ?_⟩
  simp only [n, ← badRequest_iff hv, startRead]
  split
  · exact faultTaken_raise .badRequestCount s
  · rfl

/-- Settles O22: in `READY` REWIND is `rewind`, which initialises the derived state. -/
theorem rewindRestarts : Obligations.RewindRestarts := fun _ => exec_rewind_of_ready

/-- A CONFIGURE that ends in `READY` has latched a configuration and initialised the derived state (R101, R103). -/
theorem configure_ready {s : State} (hm : (configure s).mode = .ready) :
    configure s = setResult 0 { initDerived { s with latched := latchedOf s } with mode := .ready } := by
  cases hc : configError s.args with
  | none => exact configure_of_none hc
  | some code =>
    rw [configure_of_error hc] at hm
    simp at hm

/-- Settles O23: both commands initialise the derived state from the same latched configuration. -/
theorem rewindEqualsFreshConfigure : Obligations.RewindEqualsFreshConfigure := by
  intro c t s u hc ht hready hs hlat hu
  obtain rfl := next_inj ((exec_configure_of_unconfigured hc).symm.trans ht)
  obtain rfl := next_inj ((exec_rewind_of_ready hs).symm.trans hu)
  rw [configure_ready hready] at hlat ⊢
  exact ⟨hs, hlat, congrArg Latched.startPos hlat, rfl,
    congrArg (fun l => (⟨l.blockAlign, l.blockAlign⟩ : PerChan U32)) hlat, rfl, rfl⟩

/-! ### The queries and RELEASE -/

/-- Settles O24: the flag written is `EndOfData()`. -/
theorem queryEndOfData : Obligations.QueryEndOfData := by
  intro s hm
  simp only [← endOfData_iff]
  exact acceptWhenReady_of_ready hm _

/-- Settles O26, the flag of `QUERY_STEREO` being a comparison of `CHANNELS`. -/
theorem queryStereoAndRate : Obligations.QueryStereoAndRate := by
  intro s hm
  simp only [← beq_iff_eq (a := s.latched.channels)]
  exact ⟨acceptWhenReady_of_ready hm _, acceptWhenReady_of_ready hm _⟩

/-- Settles O27, with `OWN` set and clear. -/
theorem releaseClearsInstance : Obligations.ReleaseClearsInstance := by
  intro s hm
  refine ⟨release s, acceptWhenReady_of_ready hm _, rfl, rfl, ?_⟩
  cases how : s.latched.own <;> simp [release, how, Latched.zero, ImaChan.zero, MsChan.zero]

end Sys2Proof.Machine

/-! # Plain IMA (41_ima.md) -/

namespace Sys2Proof.Machine

/-! ### The fields of a code and the difference it gives -/

theorem codeMag_toNat (code : Code) : (codeMag code).toNat = code.toNat % 8 := by
  simp [codeMag, BitVec.extractLsb'_toNat]

theorem codeSign_iff (code : Code) : codeSign code = true ↔ code.toNat / 8 = 1 := by
  have hlt := code.isLt
  rw [codeSign, BitVec.getLsbD, Nat.testBit_eq_decide_div_mod_eq, decide_eq_true_iff]
  omega

theorem code_append_toNat (sign : Bool) (m : BitVec 3) :
    (BitVec.ofBool sign ++ m).toNat = sign.toNat * 8 + m.toNat := by
  rw [append_toNat, BitVec.toNat_ofBool]
  rfl

theorem codeMag_append (sign : Bool) (m : BitVec 3) : codeMag (BitVec.ofBool sign ++ m) = m := by
  have hlt := m.isLt
  apply BitVec.eq_of_toNat_eq
  rw [codeMag_toNat, code_append_toNat]
  omega

theorem codeSign_append (sign : Bool) (m : BitVec 3) : codeSign (BitVec.ofBool sign ++ m) = sign := by
  have hlt := m.isLt
  rw [Bool.eq_iff_iff, codeSign_iff, code_append_toNat]
  cases sign <;> simp <;> omega

/-- Settles O29: the table has an entry for each of the eight magnitudes. -/
theorem stepAdjustIgnoresSign : Obligations.StepAdjustIgnoresSign := by
  intro code
  have hlt : code.toNat % 8 < stepAdjustTable.length := Nat.mod_lt _ (by decide)
  rw [stepAdjust, codeMag_toNat, List.getElem?_eq_getElem hlt, List.getD_eq_getElem _ _ hlt]

theorem imaStep_of_getElem? {i : Int} {step : Nat} (h : imaSteps[i.toNat]? = some step) : imaStep i = step := by
  rw [imaStep, List.getD_eq_getElem?_getD, h, Option.getD_some]

/-- The difference in natural numbers, which R132 adds or subtracts. -/
theorem imaDiff_eq (code : Code) (step : Nat) : imaDiff code step =
    if code.toNat / 8 = 1 then -(((2 * (code.toNat % 8) + 1) * step / 8 : Nat) : Int)
    else ((2 * (code.toNat % 8) + 1) * step / 8 : Nat) := by
  simp only [imaDiff, codeSign_iff, codeMag_toNat]
  push_cast
  rfl

theorem imaDiff_append_sign (m : BitVec 3) (step : Int) :
    imaDiff (BitVec.ofBool true ++ m) step = -imaDiff (BitVec.ofBool false ++ m) step := by
  simp only [imaDiff, codeMag_append, codeSign_append, if_true, Bool.false_eq_true, if_false]

/-! ### DECODE_IMA -/

section
variable {c : Chan} {s : State}

theorem stepIndexOk_eq_false_iff (v : ImaChan) :
    stepIndexOk v = false ↔ v.stepIndex.toInt < 0 ∨ 88 < v.stepIndex.toInt := by
  rw [Bool.eq_false_iff, Ne, stepIndexOk_iff]
  omega

theorem exec_decodeIma_ok (h : stepIndexOk (s.ima.get c) = true) (code : Code) :
    exec (.decodeIma code c) s = .next (setIma c (imaNext code (s.ima.get c)) s) :=
  congrArg Res.outcome (decodeIma_ok h code)

theorem exec_decodeIma_fault (h : stepIndexOk (s.ima.get c) = false) (code : Code) :
    exec (.decodeIma code c) s = .next (raise .stepIndexRange s) :=
  congrArg Res.outcome (decodeIma_fault h code)

end

/-- Settles O30, on either side of the range check. -/
theorem decodeImaResult : Obligations.DecodeImaResult := by
  intro code c s last index
  refine ⟨fun hout => ?_, fun step h0 h88 hstep => ?_⟩
  · exact ⟨_, exec_decodeIma_fault ((stepIndexOk_eq_false_iff _).2 hout) code, faultTaken_raise .stepIndexRange s⟩
  · refine ⟨_, exec_decodeIma_ok ((stepIndexOk_iff _).2 ⟨h0, h88⟩) code, ?_, ?_⟩
    · rw [imaNext_last_toInt, clamp_eq _ _ _ (by decide), imaStep_of_getElem? hstep, imaDiff_eq]
    · rw [imaNext_stepIndex_toInt, clamp_eq _ _ _ (by decide)]

/-- Settles O31: the registers written are those of `imaNext`, which clamps both. -/
theorem decodeImaStaysInRange : Obligations.DecodeImaStaysInRange := by
  refine ⟨fun code c s h0 h88 => ?_, fun m i => imaDiff_append_sign m (imaStep i)⟩
  obtain ⟨hlo, hhi⟩ := imaNext_last_bounds code (s.ima.get c)
  have hindex := (stepIndexOk_iff _).1 (stepIndexOk_imaNext code (s.ima.get c))
  refine ⟨_, exec_decodeIma_ok ((stepIndexOk_iff _).2 ⟨h0, h88⟩) code, rfl, ?_⟩
  rw [setIma_ima, get_set_same]
  exact ⟨hlo, hhi, hindex⟩

/-! ### IMA_BYTE -/

/-- The registers after the high nibble of a payload byte, which goes to channel 0 (R75, R135). -/
def imaFirst (b : Byte) (p : PerChan ImaChan) : ImaChan := imaNext (hiNibble b) p.ch0

/-- The registers after the low nibble: of channel 1 in stereo, of channel 0 once more in mono (R75, R135). -/
def imaSecond (stereo : Bool) (b : Byte) (p : PerChan ImaChan) : ImaChan :=
  if stereo then imaNext (loNibble b) p.ch1 else imaNext (loNibble b) (imaFirst b p)

/-- Both channels after a payload byte (R135). -/
def imaBoth (stereo : Bool) (b : Byte) (p : PerChan ImaChan) : PerChan ImaChan :=
  if stereo then ⟨imaFirst b p, imaSecond stereo b p⟩ else ⟨imaSecond stereo b p, p.ch1⟩

theorem plainIma_cons (stereo : Bool) (b : Byte) (bs : List Byte) (p : PerChan ImaChan) :
    plainIma stereo (b :: bs) p =
      ((imaFirst b p).last.toInt :: (imaSecond stereo b p).last.toInt ::
        (plainIma stereo bs (imaBoth stereo b p)).1, (plainIma stereo bs (imaBoth stereo b p)).2) := by
  cases stereo <;> rfl

/-- The output space with two consecutive elements written. -/
def writePair (o : OutSpace) (i : Nat) (x y : Sample) : OutSpace := cellWrite (cellWrite o i x) (i + 1) y

section
variable {o : OutSpace} (i : Nat) (x y : Sample)

theorem cellRead_writePair_first (h : OutSpace.wf o) : cellRead (writePair o i x y) i = x :=
  (cellRead_cellWrite_other (Nat.ne_of_lt (Nat.lt_succ_self i)) y).trans (cellRead_cellWrite_same h i x)

theorem cellRead_writePair_second (h : OutSpace.wf o) : cellRead (writePair o i x y) (i + 1) = y :=
  cellRead_cellWrite_same (cellsWf_cellWrite h i x) (i + 1) y

theorem cellRead_writePair_other {j : Nat} (h0 : j ≠ i) (h1 : j ≠ i + 1) :
    cellRead (writePair o i x y) j = cellRead o j :=
  (cellRead_cellWrite_other h1 y).trans (cellRead_cellWrite_other h0 x)

end

/-- Two channels are latched (R27). -/
def stereo (s : State) : Bool := decide (s.latched.channels = 2)

/-- `s` after an IMA_BYTE that does not fault (R135). -/
def afterImaByte (s : State) : State :=
  addCount 2 (withImaOut (imaBoth (stereo s) (wireByte s 0) s.ima)
    (writePair s.out s.outCount.toNat (s16 (imaFirst (wireByte s 0) s.ima).last.toInt)
      (s16 (imaSecond (stereo s) (wireByte s 0) s.ima).last.toInt)) (afterReads 1 s))

section
variable {s : State}

/-- Everything an IMA_BYTE does from legal step indices and with room, in stereo and in mono (R135). -/
theorem imaByte_ok (h0 : stepIndexOk s.ima.ch0 = true) (h1 : s.latched.channels = 2 → stepIndexOk s.ima.ch1 = true)
    (hroom : s.outCount.toNat + 2 ≤ s.reqN.toNat) : imaByte s = .done () (afterImaByte s) := by
  by_cases hch : s.latched.channels = 2
  · rw [imaByte_stereo hch h0 (h1 hch) hroom, afterImaByte, stereo, decide_eq_true hch]
    rfl
  · rw [imaByte_mono hch h0 hroom, afterImaByte, stereo, decide_eq_false hch]
    rfl

theorem exec_imaByte_ok (h0 : stepIndexOk s.ima.ch0 = true)
    (h1 : s.latched.channels = 2 → stepIndexOk s.ima.ch1 = true) (hroom : s.outCount.toNat + 2 ≤ s.reqN.toNat) :
    exec .imaByte s = .next (afterImaByte s) :=
  congrArg Res.outcome (imaByte_ok h0 h1 hroom)

theorem imaFirst_sample (b : Byte) (p : PerChan ImaChan) :
    (s16 (imaFirst b p).last.toInt).toInt = (imaFirst b p).last.toInt := imaSample_toInt _ _

theorem imaSecond_sample (st : Bool) (b : Byte) (p : PerChan ImaChan) :
    (s16 (imaSecond st b p).last.toInt).toInt = (imaSecond st b p).last.toInt := by
  cases st <;> exact imaSample_toInt _ _

theorem outAt_afterImaByte_first (h : OutSpace.wf s.out) :
    (outAt (afterImaByte s) s.outCount.toNat).toInt = (imaFirst (wireByte s 0) s.ima).last.toInt :=
  (congrArg BitVec.toInt (cellRead_writePair_first _ _ _ h)).trans (imaFirst_sample _ _)

theorem outAt_afterImaByte_second (h : OutSpace.wf s.out) :
    (outAt (afterImaByte s) (s.outCount.toNat + 1)).toInt =
      (imaSecond (stereo s) (wireByte s 0) s.ima).last.toInt :=
  (congrArg BitVec.toInt (cellRead_writePair_second _ _ _ h)).trans (imaSecond_sample _ _ _)

theorem outAt_afterImaByte_other {j : Nat} (h0 : j ≠ s.outCount.toNat) (h1 : j ≠ s.outCount.toNat + 1) :
    outAt (afterImaByte s) j = outAt s j :=
  cellRead_writePair_other _ _ _ h0 h1

end

/-- Settles O32, in stereo and in mono. -/
theorem imaByteResult : Obligations.ImaByteResult := by
  intro s hwf h0 h1 hroom hi lo first second
  have hsecond : imaSecond (stereo s) (wireByte s 0) s.ima = second := by
    simp only [imaSecond, stereo, decide_eq_true_eq]
    rfl
  refine ⟨_, exec_imaByte_ok h0 h1 hroom, ?_, outAt_afterImaByte_first hwf, ?_,
    fun j => outAt_afterImaByte_other, rfl⟩
  · show imaBoth (stereo s) (wireByte s 0) s.ima = _
    simp only [imaBoth, hsecond]
    simp only [stereo, decide_eq_true_eq]
    rfl
  · rw [outAt_afterImaByte_second hwf, hsecond]

/-! ### A whole READ of plain IMA -/

/-- A running READ of plain IMA with the valid range inside the source and no read past it so far. -/
structure PlainReading (s : State) : Prop where
  legal : Legal s
  busy : s.mode = .busy
  variant : s.latched.variant = .ima
  inside : s.latched.endPos ≤ s.src.len
  noShortRead : s.eosFlag = false

/-- The bytes a READ of plain IMA still decodes: as many as the request and the valid range allow (R105). -/
def bytesLeft (s : State) : Nat := min ((s.reqN.toNat - s.outCount.toNat) / 2) (s.latched.endPos - s.pos)

/-- `u` ends the READ of `s` with `n` bytes decoded, their samples written in order and reported (R105, R106, R135). -/
def StreamDecoded (n : Nat) (s u : State) : Prop :=
  let decoded := plainIma (stereo s) ((List.range n).map (wireByte s)) s.ima
  u.mode = .ready ∧ u.result.toNat = s.outCount.toNat + 2 * n ∧ u.pos = s.pos + n ∧ u.ima = decoded.2 ∧
    (∀ i x, decoded.1[i]? = some x → (outAt u (s.outCount.toNat + i)).toInt = x) ∧
    ∀ j, j < s.outCount.toNat ∨ s.outCount.toNat + 2 * n ≤ j → outAt u j = outAt s j

theorem streamDecoded_finishRead (s : State) : StreamDecoded 0 s (finishRead s) :=
  ⟨rfl, rfl, rfl, rfl, fun _ _ h => by simp [plainIma] at h, fun _ _ => rfl⟩

section
variable {s : State}

/-- The exit test of READ_LOOP says that no byte is left (R105). -/
theorem loopExit_iff_bytesLeft (h : PlainReading s) : loopExit s = true ↔ bytesLeft s = 0 := by
  obtain ⟨-, hN, hS⟩ := ((legal_iff s).1 h.legal).2.request.1 h.busy
  simp only [h.variant, requestUnit, reduceCtorEq, if_false] at hN hS
  obtain ⟨hagree, hdata⟩ := eosModesAgreeInsideSource s h.inside h.noShortRead
  have hend : endOfData s = true ↔ s.latched.endPos ≤ s.pos := by
    unfold endOfData
    cases Config.eosMode
    · exact hdata
    · rw [← hagree, hdata]
  rw [loopExit_iff, hend, bytesLeft]
  omega

/-- Where a byte is left the step is an IMA_BYTE that does not fault (R82, R105, R133). -/
theorem step_plainReading (h : PlainReading s) (hleft : 0 < bytesLeft s) : step s = .next (afterImaByte s) := by
  have hl : loopExit s = false := by
    rw [Bool.eq_false_iff, Ne, loopExit_iff_bytesLeft h]
    omega
  have hok := stepIndexOk_of_legal h.legal (by simp [h.variant])
  rw [step_of_unit (i := .imaByte) h.busy hl (by rw [unitSelector, h.variant]; rfl)]
  exact exec_imaByte_ok (hok .c0) (fun _ => hok .c1) (room_two_of_legal h.legal h.busy hl)

/-- Reads that stay inside the source each take a byte and signal nothing (R55). -/
theorem afterReads_inside {n : Nat} (h : s.pos + n ≤ s.src.len) :
    (afterReads n s).pos = s.pos + n ∧ (afterReads n s).eosFlag = s.eosFlag := by
  rw [afterReads_pos, afterReads_eosFlag, decide_eq_false (by omega), Bool.or_false]
  exact ⟨by omega, rfl⟩

/-- With a byte left the source has it, and the request has room for its samples. -/
theorem afterImaByte_counts (h : PlainReading s) (hleft : 0 < bytesLeft s) : (afterImaByte s).pos = s.pos + 1 ∧
    (afterImaByte s).eosFlag = false ∧ (afterImaByte s).outCount.toNat = s.outCount.toNat + 2 := by
  have hinside := h.inside
  unfold bytesLeft at hleft
  obtain ⟨hpos, heos⟩ := afterReads_inside (s := s) (n := 1) (by omega)
  have hroom : s.outCount.toNat + 2 ≤ s.reqN.toNat := by omega
  obtain ⟨-, -, -, hcount⟩ :=
    unitDone_of_room (n := 1) (k := 2) (t := afterImaByte s) ⟨rfl, rfl, rfl, rfl⟩ hroom
  exact ⟨hpos, heos.trans h.noShortRead, hcount⟩

theorem plainReading_afterImaByte (h : PlainReading s) (hleft : 0 < bytesLeft s) :
    PlainReading (afterImaByte s) := by
  obtain ⟨-, heos, -⟩ := afterImaByte_counts h hleft
  exact ⟨stepKeepsLegal s _ h.legal (step_plainReading h hleft), h.busy, h.variant, h.inside, heos⟩

theorem bytesLeft_afterImaByte (h : PlainReading s) (hleft : 0 < bytesLeft s) :
    bytesLeft (afterImaByte s) = bytesLeft s - 1 := by
  obtain ⟨hpos, -, hcount⟩ := afterImaByte_counts h hleft
  unfold bytesLeft at hleft ⊢
  rw [hpos, hcount]
  show min ((s.reqN.toNat - (s.outCount.toNat + 2)) / 2) (s.latched.endPos - (s.pos + 1)) = _
  omega

/-- An IMA_BYTE takes the first byte, so the k-th one read after it is the next of `s`. -/
theorem wireByte_afterImaByte (k : Nat) : wireByte (afterImaByte s) k = wireByte s (k + 1) :=
  (wireByte_afterReads s 1 k).trans (congrArg _ (Nat.add_comm 1 k))

theorem wireBytes_succ (n : Nat) : (List.range (n + 1)).map (wireByte s) =
    wireByte s 0 :: (List.range n).map (wireByte (afterImaByte s)) := by
  rw [List.range_succ_eq_map, List.map_cons, List.map_map]
  exact congrArg _ (List.map_congr_left fun k _ => (wireByte_afterImaByte k).symm)

/-- An IMA_BYTE, then a stream of `n` bytes, is a stream of `n + 1` bytes. -/
theorem streamDecoded_succ {n : Nat} {u : State} (h : PlainReading s) (hleft : 0 < bytesLeft s)
    (hu : StreamDecoded n (afterImaByte s) u) : StreamDecoded (n + 1) s u := by
  obtain ⟨hbyte, -, hcount⟩ := afterImaByte_counts h hleft
  obtain ⟨-, hwf, -⟩ := (h.legal.running h.busy).spaces
  obtain ⟨hmode, hresult, hpos, hima, hsamples, hother⟩ := hu
  rw [hcount] at hresult hsamples hother
  rw [hbyte] at hpos
  simp only [StreamDecoded, wireBytes_succ, plainIma_cons]
  refine ⟨hmode, by omega, by omega, hima, fun i x hx => ?_, fun j hj => ?_⟩
  · match i, hx with
    | 0, hx =>
      rw [hother _ (.inl (by omega)), Nat.add_zero, outAt_afterImaByte_first hwf]
      exact Option.some.inj hx
    | 1, hx =>
      rw [hother _ (.inl (by omega)), outAt_afterImaByte_second hwf]
      exact Option.some.inj hx
    | i + 2, hx =>
      rw [show s.outCount.toNat + (i + 2) = s.outCount.toNat + 2 + i by omega]
      exact hsamples i x hx
  · rw [hother j (by omega), outAt_afterImaByte_other (by omega) (by omega)]

end

/-- A READ of plain IMA decodes every byte left, by induction on how many there are. -/
theorem run_plainReading {n : Nat} {s : State} (h : PlainReading s) (hn : bytesLeft s = n) :
    ∃ k u, Host.Core.run core k s = .next u ∧ StreamDecoded n s u := by
  induction n generalizing s with
  | zero =>
    exact ⟨1, _, run_one (step_of_exit h.busy ((loopExit_iff_bytesLeft h).2 hn)), streamDecoded_finishRead s⟩
  | succ n ih =>
    have hleft : 0 < bytesLeft s := by omega
    obtain ⟨k, u, hrun, hu⟩ := ih (plainReading_afterImaByte h hleft) (by rw [bytesLeft_afterImaByte h hleft]; omega)
    exact ⟨k + 1, u, (run_of_next (step_plainReading h hleft)).trans hrun, streamDecoded_succ h hleft hu⟩

/-- Settles O48, with `bytesLeft` the statement's count. -/
theorem plainImaReadDecodesStream : Obligations.PlainImaReadDecodesStream :=
  fun _ h hm hv hend hflag => run_plainReading ⟨h, hm, hv, hend, hflag⟩ rfl

end Sys2Proof.Machine

/-! # Microsoft IMA, mono (42_ms_ima_mono.md) -/

namespace Sys2Proof.Machine

theorem exec_msimaHdr_eq (s : State) : exec .msimaHdr s = .next (setBlockPos 4
    (setIma .c0 ⟨(wireField s 0).signExtend 32, (wireField s 2).signExtend 32⟩ (afterReads 4 s))) :=
  congrArg Host.Outcome.next (msimaHdr_eq s)

/-- Settles O33: both fields are loaded sign-extended, which keeps their values. -/
theorem msimaHeaderLoads : Obligations.MsimaHeaderLoads := fun s =>
  ⟨_, exec_msimaHdr_eq s, signExtend_toInt _, signExtend_toInt _, rfl⟩

/-! ### MSIMA_BYTE -/

/-- Channel 0's registers after the low nibble of a payload byte, which comes first (R75, R152). -/
def msimaFirst (b : Byte) (v : ImaChan) : ImaChan := imaNext (loNibble b) v

/-- Channel 0's registers after the high nibble, decoded from those the low nibble left (R75, R152). -/
def msimaSecond (b : Byte) (v : ImaChan) : ImaChan := imaNext (hiNibble b) (msimaFirst b v)

/-- `s` after an MSIMA_BYTE that does not fault (R152). -/
def afterMsimaByte (s : State) : State :=
  addCount 2 (withImaOut ⟨msimaSecond (wireByte s 0) s.ima.ch0, s.ima.ch1⟩
    (writePair s.out s.outCount.toNat (s16 (msimaFirst (wireByte s 0) s.ima.ch0).last.toInt)
      (s16 (msimaSecond (wireByte s 0) s.ima.ch0).last.toInt))
    (setBlockPos (s.blockPos.ch0 + 1) (afterReads 1 s)))

section
variable {s : State}

/-- Everything an MSIMA_BYTE does from a legal step index and with room (R152). -/
theorem exec_msimaByte_ok (h0 : stepIndexOk s.ima.ch0 = true) (hroom : s.outCount.toNat + 2 ≤ s.reqN.toNat) :
    exec .msimaByte s = .next (afterMsimaByte s) :=
  congrArg Res.outcome (msimaByte_ok h0 hroom)

theorem outAt_afterMsimaByte_first (h : OutSpace.wf s.out) :
    (outAt (afterMsimaByte s) s.outCount.toNat).toInt = (msimaFirst (wireByte s 0) s.ima.ch0).last.toInt :=
  (congrArg BitVec.toInt (cellRead_writePair_first _ _ _ h)).trans (imaSample_toInt _ _)

theorem outAt_afterMsimaByte_second (h : OutSpace.wf s.out) :
    (outAt (afterMsimaByte s) (s.outCount.toNat + 1)).toInt = (msimaSecond (wireByte s 0) s.ima.ch0).last.toInt :=
  (congrArg BitVec.toInt (cellRead_writePair_second _ _ _ h)).trans (imaSample_toInt _ _)

theorem outAt_afterMsimaByte_other {j : Nat} (h0 : j ≠ s.outCount.toNat) (h1 : j ≠ s.outCount.toNat + 1) :
    outAt (afterMsimaByte s) j = outAt s j :=
  cellRead_writePair_other _ _ _ h0 h1

end

/-- Settles O34: the next state is `afterMsimaByte s`, whose two writes are a pair. -/
theorem msimaByteResult : Obligations.MsimaByteResult := fun _ hwf h0 hroom =>
  ⟨_, exec_msimaByte_ok h0 hroom, outAt_afterMsimaByte_first hwf, outAt_afterMsimaByte_second hwf,
    fun _ => outAt_afterMsimaByte_other, rfl⟩

end Sys2Proof.Machine

/-! # Microsoft IMA, stereo (43_ms_ima_stereo.md) -/

namespace Sys2Proof.Machine

/-- Both channels after the codes of their words of a group (R78, R166). -/
def imaAfterGroup (s : State) : PerChan ImaChan :=
  ⟨imaAfter (groupCodes (groupWordAt s .c0)) s.ima.ch0, imaAfter (groupCodes (groupWordAt s .c1)) s.ima.ch1⟩

theorem imaAfterGroup_get (s : State) (c : Chan) :
    (imaAfterGroup s).get c = imaAfter (groupCodes (groupWordAt s c)) (s.ima.get c) := by
  cases c <;> rfl

/-- `s` after an MSIMA_GROUP that does not fault and leaves `o` as the output (R166). -/
def afterMsimaGroup (o : OutSpace) (s : State) : State :=
  addCount 16 (withImaOut (imaAfterGroup s) o (afterReads 8 s))

/-- Settles O35: the output is the one `msimaGroup_ok` gives, and the rest of the next state is `afterMsimaGroup`. -/
theorem msimaGroupResult : Obligations.MsimaGroupResult := by
  intro s hwf h0 h1 hroom
  obtain ⟨o, hgroup, -, hsamples, hother⟩ := msimaGroup_ok s h0 h1 hwf hroom
  have hexec : exec .msimaGroup s = .next (afterMsimaGroup o s) := congrArg Res.outcome hgroup
  exact ⟨_, hexec, imaAfterGroup_get s, hsamples, hother, rfl⟩

end Sys2Proof.Machine

/-! # MS-ADPCM (44_ms_adpcm.md) -/

namespace Sys2Proof.Machine

/-! ### The coefficient pair of a predictor -/

/-- Every coefficient of R42 fits its register. -/
theorem msCoeff_inS16 : ∀ x ∈ msCoeff1 ++ msCoeff2, -32768 ≤ x ∧ x ≤ 32767 := by decide

/-- An entry of the pairs of R181 is the two tables' entry at the same index. -/
theorem selectCoeffs_toInt {v : MsChan} {c1 c2 : Int} (h : (msCoeff1.zip msCoeff2)[v.pred.toNat]? = some (c1, c2)) :
    (selectCoeffs v).coeff1.toInt = c1 ∧ (selectCoeffs v).coeff2.toInt = c2 := by
  obtain ⟨h1, h2⟩ := List.getElem?_zip_eq_some.1 h
  obtain ⟨lo1, hi1⟩ := msCoeff_inS16 c1 (List.mem_append_left _ (List.mem_of_getElem? h1))
  obtain ⟨lo2, hi2⟩ := msCoeff_inS16 c2 (List.mem_append_right _ (List.mem_of_getElem? h2))
  simp only [selectCoeffs, List.getD_eq_getElem?_getD, h1, h2, Option.getD_some]
  exact ⟨s16_toInt lo1 hi1, s16_toInt lo2 hi2⟩

/-- Settles O36: the statement's pairs are the zip of the two tables. -/
theorem msCoefficientPairs : Obligations.MsCoefficientPairs := by
  intro v c1 c2 h
  obtain ⟨h1, h2⟩ := selectCoeffs_toInt h
  exact ⟨h1, h2, rfl⟩

/-! ### DECODE_MS -/

/-- `sext_4` as R74 writes it. -/
theorem sext4_eq (code : Code) : sext4 code = if 8 ≤ code.toNat then (code.toNat : Int) - 16 else code.toNat := by
  have hsign : codeSign code = true ↔ 8 ≤ code.toNat := by
    have hlt := code.isLt
    rw [codeSign_iff]
    omega
  simp only [sext4, hsign]

theorem msAdapt_of_getElem? {code : Code} {adapt : Int} (h : msAdaptTable[code.toNat]? = some adapt) :
    msAdapt code = adapt := by
  rw [msAdapt, List.getD_eq_getElem?_getD, h, Option.getD_some]

/-- Outside s32 (R9, R184). -/
def OutsideS32 (x : Int) : Prop := x < -2 ^ 31 ∨ 2 ^ 31 - 1 < x

theorem inS32_eq_false_iff (x : Int) : inS32 x = false ↔ OutsideS32 x := by
  rw [Bool.eq_false_iff, Ne, inS32_iff, OutsideS32]
  omega

theorem msOverflow_iff (code : Code) (v : MsChan) : msOverflow code v = true ↔
    OutsideS32 (msWeighted v) ∨ OutsideS32 (msStep code v) ∨ OutsideS32 (msSum code v) ∨
      OutsideS32 (msProduct code v) := by
  simp only [msOverflow, Bool.not_and, Bool.or_eq_true, Bool.not_eq_true', inS32_eq_false_iff, or_assoc]

/-- The new delta under either width (R184). -/
theorem msDelta_eq (bits : DeltaBits) (code : Code) (v : MsChan) : msDelta bits code v =
    max 16 (if bits = .bits16 then wrap16 (sar8 (msProduct code v)) else sar8 (msProduct code v)) := by
  cases bits
  · exact msDelta_bits16 code v
  · exact msDelta_bits32 code v

/-- A delta of 0 or below gives 16, where the shifted product does not wrap to a positive one (R184, R186). -/
theorem msDelta_of_nonpos {bits : DeltaBits} {v : MsChan} (code : Code) (hd : v.delta.toInt ≤ 0)
    (hlow : bits = .bits16 → -10922 ≤ v.delta.toInt) : msDelta bits code v = 16 := by
  obtain ⟨hlo, hhi⟩ := msAdapt_bounds code
  have hprod : msProduct code v ≤ 0 := Int.mul_nonpos_of_nonneg_of_nonpos (by omega) hd
  cases bits with
  | bits16 =>
    have hbound : 768 * v.delta.toInt ≤ msProduct code v := Int.mul_le_mul_of_nonpos_right hhi hd
    have hdelta := hlow rfl
    rw [msDelta_bits16, sar8, wrap16_eq (by omega) (by omega)]
    omega
  | bits32 =>
    rw [msDelta_bits32, sar8]
    omega

section
variable {c : Chan} {code : Code} {s : State}

theorem exec_decodeMs_ok (h : Config.msDeltaBits = .bits32 → msOverflow code (s.ms.get c) = false) :
    exec (.decodeMs c code) s = .next (setMs c (msNext Config.msDeltaBits code (s.ms.get c)) s) :=
  congrArg Res.outcome (decodeMs_ok h)

theorem exec_decodeMs_fault (hb : Config.msDeltaBits = .bits32) (h : msOverflow code (s.ms.get c) = true) :
    exec (.decodeMs c code) s = .next (raise .deltaOverflow s) := by
  show (decodeMs Config.msDeltaBits c code s).outcome = _
  rw [hb, decodeMs_fault h]
  rfl

end

/-- Settles O40, on either side of the overflow check. -/
theorem decodeMsResult : Obligations.DecodeMsResult := by
  intro c code s adapt hadapt v weighted nibble p t outside
  have hstep : msStep code v = nibble * v.delta.toInt := congrArg (· * v.delta.toInt) (sext4_eq code)
  have hsum : msSum code v = p := congrArg₂ (· + ·) (tdiv256_eq weighted) hstep
  have hprod : msProduct code v = t := congrArg (· * v.delta.toInt) (msAdapt_of_getElem? hadapt)
  have hover : msOverflow code v = true ↔
      outside weighted ∨ outside (nibble * v.delta.toInt) ∨ outside p ∨ outside t := by
    rw [← hstep, ← hsum, ← hprod]
    exact msOverflow_iff code v
  split
  next h =>
    obtain ⟨hb, hout⟩ := h
    exact ⟨_, exec_decodeMs_fault hb (hover.2 hout), faultTaken_raise .deltaOverflow s⟩
  next h =>
    have hok : Config.msDeltaBits = .bits32 → msOverflow code v = false := fun hb =>
      Bool.eq_false_iff.2 fun ho => h ⟨hb, hover.1 ho⟩
    refine ⟨_, exec_decodeMs_ok hok, ?_, rfl, ?_, rfl, rfl, rfl⟩
    · rw [msNext_sample1_toInt, clamp_eq _ _ _ (by decide), hsum]
    · rw [msNext_delta_toInt _ _ _ hok, msDelta_eq, hprod, sar8_eq]
      rfl

/-- Settles O41: the overflow fault, or the registers of `msNext`. -/
theorem decodeMsStaysInRange : Obligations.DecodeMsStaysInRange := by
  intro c code s
  obtain ⟨hb, hover⟩ | hok := msOverflow_cases Config.msDeltaBits code (s.ms.get c)
  · exact ⟨_, exec_decodeMs_fault hb hover, .inl (faultTaken_raise .deltaOverflow s)⟩
  · refine ⟨_, exec_decodeMs_ok hok, .inr ⟨rfl, ?_⟩⟩
    obtain ⟨hlo, hhi⟩ := clamp_bounds (msSum code (s.ms.get c)) (-32768) 32767 (by decide)
    obtain ⟨hdelta, -, -⟩ := msDelta_bounds Config.msDeltaBits code (s.ms.get c) hok
    rw [setMs_ms, get_set_same, msNext_sample1_toInt, msNext_delta_toInt _ _ _ hok]
    exact ⟨hlo, hhi, hdelta, msDelta_of_nonpos code⟩

/-! ### MSADPCM_BYTE -/

/-- `s` with these MS-ADPCM registers and this output. -/
def withMsOut (p : PerChan MsChan) (o : OutSpace) (s : State) : State := { s with ms := p, out := o }

theorem setMs_eq_withMsOut (c : Chan) (v : MsChan) (s : State) : setMs c v s = withMsOut (s.ms.set c v) s.out s := rfl

@[simp] theorem setMs_withMsOut (c : Chan) (v : MsChan) (p : PerChan MsChan) (o : OutSpace) (s : State) :
    setMs c v (withMsOut p o s) = withMsOut (p.set c v) o s := rfl

@[simp] theorem setOut_withMsOut (i : Nat) (x : Sample) (p : PerChan MsChan) (o : OutSpace) (s : State) :
    setOut i x (withMsOut p o s) = withMsOut p (cellWrite o i x) s := rfl

/-- Channel 0's registers after the high nibble of the next payload byte (R185). -/
def msFirst (s : State) : MsChan := msNext Config.msDeltaBits (hiNibble (wireByte s 0)) s.ms.ch0

/-- The registers the low nibble is decoded from: channel 1's in stereo, in mono those the high nibble left (R185). -/
def msEntry (s : State) : MsChan := if s.latched.channels = 2 then s.ms.ch1 else msFirst s

/-- The last channel's registers after the low nibble (R185). -/
def msSecond (s : State) : MsChan := msNext Config.msDeltaBits (loNibble (wireByte s 0)) (msEntry s)

/-- Both channels after a payload byte (R185). -/
def msBoth (s : State) : PerChan MsChan :=
  if s.latched.channels = 2 then ⟨msFirst s, msSecond s⟩ else ⟨msSecond s, s.ms.ch1⟩

/-- `s` after an MSADPCM_BYTE that does not fault (R185). -/
def afterMsadpcmByte (s : State) : State :=
  addCount 2 (withMsOut (msBoth s) (writePair s.out s.outCount.toNat (msFirst s).sample1 (msSecond s).sample1)
    (setBlockPos (s.blockPos.ch0 + 1) (afterReads 1 s)))

section
variable {s : State}

/-- Everything an MSADPCM_BYTE does with room and without overflow, in stereo and in mono (R185). -/
theorem exec_msadpcmByte_ok (hroom : s.outCount.toNat + 2 ≤ s.reqN.toNat)
    (h0 : Config.msDeltaBits = .bits32 → msOverflow (hiNibble (wireByte s 0)) s.ms.ch0 = false)
    (h1 : Config.msDeltaBits = .bits32 → msOverflow (loNibble (wireByte s 0)) (msEntry s) = false) :
    exec .msadpcmByte s = .next (afterMsadpcmByte s) := by
  refine congrArg Res.outcome (a₂ := .done () (afterMsadpcmByte s)) ?_
  by_cases hch : s.latched.channels = 2
  · have hentry : msEntry s = s.ms.ch1 := if_pos hch
    rw [hentry] at h1
    rw [msadpcmByte_stereo hch h0 h1 hroom, afterMsadpcmByte, msBoth, if_pos hch, msSecond, hentry]
    rfl
  · have hentry : msEntry s = msFirst s := if_neg hch
    rw [hentry] at h1
    rw [msadpcmByte_mono hch h0 h1 hroom, afterMsadpcmByte, msBoth, if_neg hch, msSecond, hentry]
    rfl

theorem outAt_afterMsadpcmByte_first (h : OutSpace.wf s.out) :
    outAt (afterMsadpcmByte s) s.outCount.toNat = (msFirst s).sample1 :=
  cellRead_writePair_first _ _ _ h

theorem outAt_afterMsadpcmByte_second (h : OutSpace.wf s.out) :
    outAt (afterMsadpcmByte s) (s.outCount.toNat + 1) = (msSecond s).sample1 :=
  cellRead_writePair_second _ _ _ h

theorem outAt_afterMsadpcmByte_other {j : Nat} (h0 : j ≠ s.outCount.toNat) (h1 : j ≠ s.outCount.toNat + 1) :
    outAt (afterMsadpcmByte s) j = outAt s j :=
  cellRead_writePair_other _ _ _ h0 h1

end

/-- Settles O42: the next state is `afterMsadpcmByte s`, whose two writes are a pair. -/
theorem msadpcmByteResult : Obligations.MsadpcmByteResult := fun _ hwf _ hroom hover =>
  ⟨_, exec_msadpcmByte_ok hroom (fun hb => (hover hb).1) (fun hb => (hover hb).2), rfl,
    outAt_afterMsadpcmByte_first hwf, outAt_afterMsadpcmByte_second hwf, fun _ => outAt_afterMsadpcmByte_other, rfl⟩

/-! ### MSADPCM_HDR -/

/-- Settles O39: the check comes before every read and write. -/
theorem msadpcmHeaderOverrun : Obligations.MsadpcmHeaderOverrun := fun s h =>
  ⟨_, congrArg Res.outcome (msadpcmHdr_fault h), faultTaken_raise .outputOverrun s⟩

section
variable (v : MsChan) (p : Byte) (d a b : Sample)

theorem headerChan_pred_toNat : (headerChan v p d a b).pred.toNat = min p.toNat 6 := clampPred_toNat p

theorem headerChan_eq_selectCoeffs : headerChan v p d a b = selectCoeffs (headerChan v p d a b) := rfl

theorem headerChan_delta_toInt : (headerChan v p d a b).delta.toInt = d.toInt := signExtend_toInt d

end

/-- Channel 0's registers after a one-channel header read from `s` on, by the offsets of R79. -/
def monoHeaderChan (s : State) : MsChan :=
  headerChan s.ms.ch0 (wireByte s 0) (wireField s 1) (wireField s 3) (wireField s 5)

/-- `s` after a one-channel header that fits (R182). -/
def afterHeaderMono (s : State) : State :=
  setBlockPos 7 (addCount 2 (withMsOut ⟨monoHeaderChan s, s.ms.ch1⟩
    (writePair s.out s.outCount.toNat (wireField s 3) (wireField s 5)) (afterReads 7 s)))

/-- Both channels' registers after a two-channel header read from `s` on, by the offsets of R79. -/
def stereoHeaderChans (s : State) : PerChan MsChan :=
  ⟨headerChan s.ms.ch0 (wireByte s 0) (wireField s 2) (wireField s 6) (wireField s 10),
    headerChan s.ms.ch1 (wireByte s 1) (wireField s 4) (wireField s 8) (wireField s 12)⟩

/-- The output after a two-channel header: the pair of `sample2`, then the pair of `sample1` (R182). -/
def stereoHeaderOut (s : State) : OutSpace :=
  writePair (writePair s.out s.outCount.toNat (wireField s 6) (wireField s 8)) (s.outCount.toNat + 2)
    (wireField s 10) (wireField s 12)

/-- `s` after a two-channel header that fits (R182). -/
def afterHeaderStereo (s : State) : State :=
  setBlockPos 14 (addCount 4 (withMsOut (stereoHeaderChans s) (stereoHeaderOut s) (afterReads 14 s)))

section
variable {s : State}

theorem exec_msadpcmHdr_mono (hch : s.latched.channels = 1) (hroom : s.outCount.toNat + 2 ≤ s.reqN.toNat) :
    exec .msadpcmHdr s = .next (afterHeaderMono s) :=
  congrArg Res.outcome (msadpcmHdr_mono hch hroom)

theorem exec_msadpcmHdr_stereo (hch : s.latched.channels = 2) (hroom : s.outCount.toNat + 4 ≤ s.reqN.toNat) :
    exec .msadpcmHdr s = .next (afterHeaderStereo s) := by
  show (msadpcmHdr .doc s).outcome = _
  rw [msadpcmHdr_stereo hch hroom, setMs_eq_withMsOut .c0]
  simp only [setMs_withMsOut, setOut_withMsOut]
  rfl

theorem cellsWf_writePair {o : OutSpace} (h : OutSpace.wf o) (i : Nat) (x y : Sample) :
    OutSpace.wf (writePair o i x y) :=
  cellsWf_cellWrite (cellsWf_cellWrite h i x) (i + 1) y

/-- The second pair leaves what stands below it. -/
theorem outAt_afterHeaderStereo_below {j : Nat} (h : j < s.outCount.toNat + 2) : outAt (afterHeaderStereo s) j =
    cellRead (writePair s.out s.outCount.toNat (wireField s 6) (wireField s 8)) j :=
  cellRead_writePair_other _ _ _ (by omega) (by omega)

theorem outAt_afterHeaderStereo_sample2 (h : OutSpace.wf s.out) :
    outAt (afterHeaderStereo s) s.outCount.toNat = wireField s 6 ∧
      outAt (afterHeaderStereo s) (s.outCount.toNat + 1) = wireField s 8 := by
  rw [outAt_afterHeaderStereo_below (by omega), outAt_afterHeaderStereo_below (by omega)]
  exact ⟨cellRead_writePair_first _ _ _ h, cellRead_writePair_second _ _ _ h⟩

theorem outAt_afterHeaderStereo_sample1 (h : OutSpace.wf s.out) :
    outAt (afterHeaderStereo s) (s.outCount.toNat + 2) = wireField s 10 ∧
      outAt (afterHeaderStereo s) (s.outCount.toNat + 3) = wireField s 12 :=
  have hwf := cellsWf_writePair h s.outCount.toNat (wireField s 6) (wireField s 8)
  ⟨cellRead_writePair_first _ _ _ hwf, cellRead_writePair_second _ _ _ hwf⟩

theorem outAt_afterHeaderStereo_other {j : Nat} (h : j < s.outCount.toNat ∨ s.outCount.toNat + 4 ≤ j) :
    outAt (afterHeaderStereo s) j = outAt s j :=
  (cellRead_writePair_other _ _ _ (by omega) (by omega)).trans
    (cellRead_writePair_other _ _ _ (by omega) (by omega))

end

/-- Settles O38: the next state is `afterHeaderMono s`. -/
theorem msadpcmHeaderMono : Obligations.MsadpcmHeaderMono := fun _ hwf hch hroom =>
  ⟨_, exec_msadpcmHdr_mono hch hroom, headerChan_pred_toNat .., headerChan_eq_selectCoeffs ..,
    headerChan_delta_toInt .., rfl, rfl, cellRead_writePair_first _ _ _ hwf, cellRead_writePair_second _ _ _ hwf,
    fun _ => cellRead_writePair_other _ _ _, rfl⟩

/-- Settles O37: the next state is `afterHeaderStereo s`. -/
theorem msadpcmHeaderStereo : Obligations.MsadpcmHeaderStereo := by
  intro s hwf hch hroom
  obtain ⟨out0, out1⟩ := outAt_afterHeaderStereo_sample2 hwf
  obtain ⟨out2, out3⟩ := outAt_afterHeaderStereo_sample1 hwf
  exact ⟨_, exec_msadpcmHdr_stereo hch hroom, headerChan_pred_toNat .., headerChan_pred_toNat ..,
    headerChan_eq_selectCoeffs .., headerChan_eq_selectCoeffs .., headerChan_delta_toInt ..,
    headerChan_delta_toInt .., rfl, rfl, rfl, rfl, out0, out1, out2, out3,
    fun _ => outAt_afterHeaderStereo_other, rfl⟩

end Sys2Proof.Machine

/-! # Exceptions (60_exceptions.md) -/

namespace Sys2Proof.Machine

/-! ### Taking a fault -/

/-- `STATUS` after a fault: its code, `FLT`, and every other field 0 (R23, R212). -/
theorem statusWord_raise (code : FaultCode) (s : State) :
    (statusWord (raise code s)).toNat = 256 * (faultNum code).toNat + 2 := by
  have hcode : statusFaultCode (raise code s) = faultNum code := rfl
  have hvariant : statusVariant (raise code s) = 0 := rfl
  have hstereo : statusStereo (raise code s) = false := rfl
  have heod : statusEod (raise code s) = false := rfl
  have hflt : statusFlt (raise code s) = true := rfl
  have hcfg : statusCfg (raise code s) = false := rfl
  rw [statusWord_toNat, hcode, hvariant, hstereo, heod, hflt, hcfg]
  rfl

/-- The codes of R210 are 1 to 11. -/
theorem faultNum_bounds (code : FaultCode) : 1 ≤ (faultNum code).toNat ∧ (faultNum code).toNat ≤ 11 := by
  cases code <;> decide

/-- Settles O18: `raise` writes the code and the mode, and what follows a raised fault does not run. -/
theorem faultEntry : Obligations.FaultEntry := by
  intro code s
  obtain ⟨hlo, hhi⟩ := faultNum_bounds code
  exact ⟨faultTaken_raise code s, raise_result s code, statusWord_raise code s, hlo, hhi,
    fun f => congrArg Res.outcome (andThen_raised _ f)⟩

/-! ### FAULTED -/

section
variable {s t : State}

/-- In `FAULTED` a host write of `CMD` has no effect on the state it finds (R100, R214). -/
theorem cmdEffect_of_faulted {d : Decoded} (h : CmdEffect d s t) (hm : s.mode = .faulted) : t = s := by
  cases h with
  | ignored => rfl
  | raised _ hm' | configured _ hm' | started hm' | rewound hm' | queried _ hm' | released _ hm' => simp [hm] at hm'

/-- In `FAULTED` every host step but hardware reset keeps the mode and the code (R214). -/
theorem hostEffect_of_faulted (hm : s.mode = .faulted) (h : HostEffect s t)
    (hreset : s.host.head? ≠ some .hardwareReset) : t.mode = .faulted ∧ t.faultCode = s.faultCode := by
  cases h with
  | idle | argWritten | sourceBound | outBound => exact ⟨hm, rfl⟩
  | command hh he =>
    rw [cmdEffect_of_faulted he hm]
    exact ⟨hm, rfl⟩
  | resetDone hh => simp [hh] at hreset

theorem step_of_hardwareReset {rest : List HostAction} (hm : s.mode ≠ .busy) (hh : s.host = .hardwareReset :: rest) :
    step s = .next (hardwareReset { s with host := rest }) := by
  simp only [step, hm, if_false, hostTurn, hh, hostAction]

end

/-- Settles O14, over everything a host step can do. -/
theorem faultedUntilReset : Obligations.FaultedUntilReset := by
  intro s hm
  have hidle : s.mode ≠ .busy := by simp [hm]
  exact ⟨fun w rest hh => step_of_cmd_faulted hh hm,
    fun t he => hostEffect_of_faulted hm (step_host_effect hidle he),
    fun rest hh => ⟨_, step_of_hardwareReset hidle hh, rfl⟩⟩

/-! ### A fault within a payload byte -/

section
variable {s : State}

theorem exec_imaByte_fault_first (h0 : stepIndexOk s.ima.ch0 = false) :
    exec .imaByte s = .next (raise .stepIndexRange (afterReads 1 s)) :=
  congrArg Res.outcome (imaByte_fault_first h0)

/-- In stereo the second decode's fault finds channel 0 and the first sample written (R135, R213). -/
theorem exec_imaByte_fault_second (hch : s.latched.channels = 2) (hn : s.outCount.toNat < s.reqN.toNat)
    (h0 : stepIndexOk s.ima.ch0 = true) (h1 : stepIndexOk s.ima.ch1 = false) :
    exec .imaByte s = .next (raise .stepIndexRange (withImaOut ⟨imaFirst (wireByte s 0) s.ima, s.ima.ch1⟩
      (cellWrite s.out s.outCount.toNat (s16 (imaFirst (wireByte s 0) s.ima).last.toInt)) (afterReads 1 s))) :=
  congrArg Res.outcome (imaByte_fault_second hch hn h0 h1)

theorem exec_msimaByte_fault (h0 : stepIndexOk s.ima.ch0 = false) :
    exec .msimaByte s = .next (raise .stepIndexRange (setBlockPos (s.blockPos.ch0 + 1) (afterReads 1 s))) :=
  congrArg Res.outcome (msimaByte_fault h0)

theorem exec_msadpcmByte_of_bits32 (hb : Config.msDeltaBits = .bits32) :
    exec .msadpcmByte s = (msadpcmByte .bits32 s).outcome :=
  congrArg (fun bits => (msadpcmByte bits s).outcome) hb

theorem exec_msadpcmByte_fault_first (hb : Config.msDeltaBits = .bits32)
    (h0 : msOverflow (hiNibble (wireByte s 0)) s.ms.ch0 = true) :
    exec .msadpcmByte s = .next (raise .deltaOverflow (setBlockPos (s.blockPos.ch0 + 1) (afterReads 1 s))) :=
  (exec_msadpcmByte_of_bits32 hb).trans (congrArg Res.outcome (msadpcmByte_fault_first h0))

/-- The second decode's overflow finds channel 0 and the first sample written (R185, R213). -/
theorem exec_msadpcmByte_fault_second (hb : Config.msDeltaBits = .bits32) (hn : s.outCount.toNat < s.reqN.toNat)
    (h0 : msOverflow (hiNibble (wireByte s 0)) s.ms.ch0 = false)
    (h1 : msOverflow (loNibble (wireByte s 0))
      (if s.latched.channels = 2 then s.ms.ch1 else msNext .bits32 (hiNibble (wireByte s 0)) s.ms.ch0) = true) :
    exec .msadpcmByte s = .next (raise .deltaOverflow
      (withMsOut ⟨msNext .bits32 (hiNibble (wireByte s 0)) s.ms.ch0, s.ms.ch1⟩
        (cellWrite s.out s.outCount.toNat (msNext .bits32 (hiNibble (wireByte s 0)) s.ms.ch0).sample1)
        (setBlockPos (s.blockPos.ch0 + 1) (afterReads 1 s)))) :=
  (exec_msadpcmByte_of_bits32 hb).trans (congrArg Res.outcome (msadpcmByte_fault_second h0 hn h1))

end

/-- Settles O43, decode by decode: each fault's state is what the reads and the first decode left. -/
theorem payloadFaultsArePrecise : Obligations.PayloadFaultsArePrecise := by
  refine ⟨fun s h0 => ⟨?_, ?_⟩, fun s hch hn h0 h1 => ?_, fun s hb h0 => ?_, fun s hb _ hn h0 h1 => ?_⟩
  · exact ⟨_, exec_imaByte_fault_first h0, faultTaken_raise .stepIndexRange _⟩
  · exact ⟨_, exec_msimaByte_fault h0, faultTaken_raise .stepIndexRange _⟩
  · exact ⟨_, exec_imaByte_fault_second hch hn h0 h1, faultTaken_raise .stepIndexRange _⟩
  · exact ⟨_, exec_msadpcmByte_fault_first hb h0, faultTaken_raise .deltaOverflow _⟩
  · exact ⟨_, exec_msadpcmByte_fault_second hb hn h0 h1, faultTaken_raise .deltaOverflow _⟩

/-! ### The output of a running READ -/

/-- From `s` to `t` no output element below `s`'s count or from its `N` on is written, and `N` has not grown, so what
follows writes none either (R60, R216). -/
def WritesInsideRequest (s t : State) : Prop :=
  t.reqN.toNat ≤ s.reqN.toNat ∧ ∀ i, i < s.outCount.toNat ∨ s.reqN.toNat ≤ i → outAt t i = outAt s i

section
variable {s t : State}

theorem writesInsideRequest_refl (s : State) : WritesInsideRequest s s := ⟨Nat.le_refl _, fun _ _ => rfl⟩

/-- A write from the count on and below `N` is inside the request. -/
theorem writesInsideRequest_setOut {i : Nat} (hlo : s.outCount.toNat ≤ i) (hn : i < t.reqN.toNat) (v : Sample)
    (h : WritesInsideRequest s t) : WritesInsideRequest s (setOut i v t) := by
  obtain ⟨hle, hout⟩ := h
  refine ⟨hle, fun j hj => ?_⟩
  have hne : j ≠ i := by omega
  rw [outAt_setOut_other hne, hout j hj]

/-- A fault writes no element, and `N` is gone with the request (R39, R212). -/
theorem writesInsideRequest_raise (code : FaultCode) (h : WritesInsideRequest s t) :
    WritesInsideRequest s (raise code t) := ⟨Nat.zero_le _, h.2⟩

theorem imaClosed_writesInsideRequest (s : State) : ImaClosed s.outCount.toNat (WritesInsideRequest s) where
  read _ _ h := h
  ima _ _ _ h := h
  out _ v _ hlo hn h := writesInsideRequest_setOut hlo hn v h
  count _ _ h := h
  fault code _ h := writesInsideRequest_raise code h

theorem msClosed_writesInsideRequest (s : State) : MsClosed s.outCount.toNat (WritesInsideRequest s) where
  read _ _ h := h
  ms _ _ _ h := h
  out _ v _ hlo hn h := writesInsideRequest_setOut hlo hn v h
  block _ _ h := h
  count _ _ h := h
  fault code _ h := writesInsideRequest_raise code h

/-- Every step of a running READ writes inside the request, whether or not it faults (R60, R216). -/
theorem step_busy_writesInsideRequest (hm : s.mode = .busy) (he : step s = .next t) : WritesInsideRequest s t := by
  have hima := imaClosed_writesInsideRequest s
  have hms := msClosed_writesInsideRequest s
  have hs := writesInsideRequest_refl s
  obtain ⟨-, rfl⟩ | ⟨-, ⟨-, rfl⟩ | ⟨-, -, rfl⟩ | ⟨-, -, rfl⟩ | ⟨-, rfl⟩ | ⟨-, -, rfl⟩ | ⟨-, -, rfl⟩⟩ :=
    step_busy_cases hm he
  · exact ⟨Nat.zero_le _, fun _ _ => rfl⟩
  · exact imaByte_state hima hs
  · exact msimaHdr_state hima hms.block hs
  · exact msimaByte_state hima hms.block hs
  · exact msimaGroup_state hima hs
  · exact msadpcmHdr_state hms _ hs
  · exact msadpcmByte_state hms _ hs

end

/-- Settles O50: the bound on the writes is kept by every micro-operation and by the end of the READ. -/
theorem outputStaysInsideRequest : Obligations.OutputStaysInsideRequest := by
  intro s t hm he
  obtain ⟨-, hout⟩ := step_busy_writesInsideRequest hm he
  exact hout

end Sys2Proof.Machine

/-! # Reset and hazards (70_reset_and_hazards.md) -/

namespace Sys2Proof.Machine

/-- `STATUS` reads 0 after hardware reset: no decoder and no fault is left to show (R23, R240). -/
theorem statusWord_hardwareReset (s : State) : statusWord (hardwareReset s) = 0 := by
  have hcode : statusFaultCode (hardwareReset s) = 0 := rfl
  have hvariant : statusVariant (hardwareReset s) = 0 := rfl
  have hstereo : statusStereo (hardwareReset s) = false := rfl
  have heod : statusEod (hardwareReset s) = false := rfl
  have hflt : statusFlt (hardwareReset s) = false := rfl
  have hcfg : statusCfg (hardwareReset s) = false := rfl
  rw [statusWord, hcode, hvariant, hstereo, heod, hflt, hcfg]
  rfl

/-- Only hardware reset leaves `FAULTED`: every other host step keeps it (R214, R240). -/
theorem head?_host_of_step_leaves_faulted {s t : State} (hm : s.mode = .faulted) (he : step s = .next t)
    (hleft : t.mode ≠ .faulted) : s.host.head? = some .hardwareReset := by
  have hidle : s.mode ≠ .busy := by simp [hm]
  by_contra hreset
  obtain ⟨hkept, -⟩ := hostEffect_of_faulted hm (step_host_effect hidle he) hreset
  exact hleft hkept

/-- Settles O15: hardware reset gives R45's first column, whatever the state was, and O14's frame bars every other
way out of `FAULTED`. -/
theorem hardwareResetValues : Obligations.HardwareResetValues := by
  refine ⟨fun s rest hm hh => ?_, fun _ _ => head?_host_of_step_leaves_faulted⟩
  exact ⟨hardwareReset { s with host := rest }, step_of_hardwareReset hm hh, rfl, rfl, rfl, rfl,
    statusWord_hardwareReset _, rfl, rfl, rfl, rfl, rfl, rfl, rfl⟩

end Sys2Proof.Machine
